-- ==== Sys2Proof/Syntax.lean ====
section
/-! DEFINITION. The command set: one constructor per row of spec/opcode_table.json. A command has no operand: each reads and writes the registers its rule names, always the same ones (R70, R72). -/

namespace Sys2Proof

/-- The twelve commands (R70). -/
inductive Instr where
  | pack16
  | pack32
  | packname
  | parsename
  | flagsunpack
  | flagspack
  | hdrunpack
  | hdrpack
  | qunpack
  | ansbuild
  | lookup
  | respond
deriving DecidableEq, Repr

end Sys2Proof
end

