-- ==== Sys2Proof/Word.lean ====
section
/-! DEFINITION. The block's words: octets, 16-bit values, byte strings, the 4-octet address and the peer tag (R11, R12, R15, R29). -/

namespace Sys2Proof

/-- An octet, a value 0..255 (R11). -/
abbrev Byte := BitVec 8

/-- A 16-bit value (R24, R28). -/
abbrev Half := BitVec 16

/-- A byte string: a finite sequence of octets, first index 0 (R12). -/
abbrev Octets := List Byte

/-- The opaque peer tag standing for "sender address/port" (R22); entry 9. -/
abbrev Peer := Nat

/-- Four octets, `b0` first on the wire; no byte order applies (R29). -/
structure Addr where
  b0 : Byte
  b1 : Byte
  b2 : Byte
  b3 : Byte
deriving DecidableEq, Repr, Inhabited

end Sys2Proof
end

