-- ==== Sys2Proof/Decode.lean ====
section
/-! DEFINITION. The command word (R70, R71): the decoder, total on words and on byte strings, and the encoder. -/

namespace Sys2Proof

/-- Why the decoder gives no command. -/
inductive DecodeError where
  /-- The byte string is empty: there is no command word. -/
  | noWord
  /-- The octet that should hold the command word has a bit above bit 3: it is no 4-bit word (entry 16). -/
  | tooWide (b : Byte)
  /-- A reserved code 0x0, 0xD, 0xE or 0xF (R71). -/
  | reserved (c : BitVec 4)
deriving DecidableEq, Repr

/-- The command a 4-bit word selects (R70), or the reserved code it is (R71). -/
def decodeWord (c : BitVec 4) : Except DecodeError Instr :=
  match c with
  | 0x1#4 => .ok .pack16
  | 0x2#4 => .ok .pack32
  | 0x3#4 => .ok .packname
  | 0x4#4 => .ok .parsename
  | 0x5#4 => .ok .flagsunpack
  | 0x6#4 => .ok .flagspack
  | 0x7#4 => .ok .hdrunpack
  | 0x8#4 => .ok .hdrpack
  | 0x9#4 => .ok .qunpack
  | 0xA#4 => .ok .ansbuild
  | 0xB#4 => .ok .lookup
  | 0xC#4 => .ok .respond
  | c => .error (.reserved c)

/-- The 4-bit command word that an octet holds in its low bits, the high bits being zero (entry 16). -/
def commandWord (bs : Octets) : Except DecodeError (BitVec 4) :=
  match bs with
  | [] => .error .noWord
  | b :: _ => if b.toNat < 16 then .ok (BitVec.ofNat 4 b.toNat) else .error (.tooWide b)

/-- The decoder on a byte string: the command and the octets after it. -/
def decode (bs : Octets) : Except DecodeError (Instr × Octets) :=
  match commandWord bs with
  | .error e => .error e
  | .ok c =>
    match decodeWord c with
    | .error e => .error e
    | .ok i => .ok (i, bs.drop 1)

/-- The 4-bit word of a command (R70). -/
def encode : Instr → BitVec 4
  | .pack16 => 0x1#4
  | .pack32 => 0x2#4
  | .packname => 0x3#4
  | .parsename => 0x4#4
  | .flagsunpack => 0x5#4
  | .flagspack => 0x6#4
  | .hdrunpack => 0x7#4
  | .hdrpack => 0x8#4
  | .qunpack => 0x9#4
  | .ansbuild => 0xA#4
  | .lookup => 0xB#4
  | .respond => 0xC#4

/-- The octet that carries a command's word (entry 16). -/
def encodeBytes (i : Instr) : Octets := [BitVec.ofNat 8 (encode i).toNat]

/-- The octets of an instruction whose bits are `w` as spec/opcode_table.json numbers them: bit 0 least significant, the bits above `nbits` zero, at least one octet. -/
def tableBytes (nbits w : Nat) : Octets :=
  (List.range (max 1 ((nbits + 7) / 8))).map (fun k => BitVec.ofNat 8 ((w % 2 ^ nbits) / 2 ^ (8 * k)))

/-- What the decoder reads from the bits `w` of a table row. -/
def decodeTableWord (nbits w : Nat) : Option Instr :=
  match decode (tableBytes nbits w) with
  | .ok (i, _) => some i
  | .error _ => none

end Sys2Proof
end

