-- ==== Sys2Proof/Config.lean ====
section
/-! DEFINITION. The configuration an implementation fixes (R6-R9, R34, R231) and the free values of the model: what R47 and U17 call unspecified, and the default address of the machine after reset. -/

namespace Sys2Proof

/-- The parameters of the block (R34). The block never writes one of them (R231); entry 3. -/
structure Config where
  /-- MAX_LEN, the capacity in octets of RX, TX and NAME (R6). -/
  maxLen : Nat
  /-- VALW, the width in bits of VAL (R7). -/
  valw : Nat
  /-- TABLE, a finite partial map from names in dotted form to addresses (R8), as a list of pairs; entry 18. -/
  table : List (Octets × Addr)
  /-- DEFAULT_ADDR, the address of every name that TABLE has no key for (R9). -/
  defaultAddr : Addr
deriving DecidableEq, Repr

/-- Free value: what register number `reg` (R31) holds after reset number `k`, where R47 leaves it unspecified. No value of it can be proved; entry 5. -/
opaque Config.freeReg (k reg : Nat) : Nat

/-- Free value: what ADDR holds after reset number `k` (R47); entry 5. -/
opaque Config.freeAddr (k : Nat) : Addr

/-- Free value: what an unspecified octet holds: `buf` is the buffer (0 RX, 1 TX, 2 NAME), `epoch` counts the events that made octets of that buffer unspecified, `a` is the octet's index (R47, U17); entry 6. -/
opaque Config.freeOctet (buf epoch a : Nat) : Byte

/-- Free value: DEFAULT_ADDR of the machine after reset: its value is not in the source (R9, N6); entry 4. -/
opaque Config.freeDefaultAddr : Addr

end Sys2Proof
end

