-- ==== Sys2Proof/Machine/Parameters.lean ====
section
/-! DEFINITION. The fixed constants of the block (R10), the source's table (R8), the cursor's width (R35) and the configuration of the machine after reset. -/

namespace Sys2Proof

namespace Machine

/-- HDR_LEN: octets in the header (R10). -/
abbrev hdrLen : Nat := 12

/-- TYPE_ADDRESS: the record type of the one answer kind (R10). -/
abbrev typeAddress : Nat := 1

/-- CLASS_INTERNET: the record class of the one answer kind (R10). -/
abbrev classInternet : Nat := 1

/-- TTL_SECONDS: the time-to-live in every answer (R10). -/
abbrev ttlSeconds : Nat := 600

/-- RDLENGTH_ADDRESS: the data length in every answer (R10). -/
abbrev rdlengthAddress : Nat := 4

/-- MAX_LABEL: the largest label length (R10). -/
abbrev maxLabel : Nat := 63

/-- OPCODE_STANDARD_QUERY: the only opcode served (R10). -/
abbrev opcodeStandardQuery : BitVec 4 := 0

/-- DOT: the label separator in dotted form (R10). -/
abbrev dot : Byte := 0x2E

/-- The octets of "www.aftonbladet.se". -/
def nameAftonbladet : Octets :=
  [0x77, 0x77, 0x77, 0x2E, 0x61, 0x66, 0x74, 0x6F, 0x6E, 0x62, 0x6C, 0x61, 0x64, 0x65, 0x74, 0x2E, 0x73, 0x65]

/-- The octets of "www.google.se". -/
def nameGoogle : Octets :=
  [0x77, 0x77, 0x77, 0x2E, 0x67, 0x6F, 0x6F, 0x67, 0x6C, 0x65, 0x2E, 0x73, 0x65]

/-- TABLE_SRC: the table with exactly the two entries the source gives (R8). -/
def tableSrc : List (Octets × Addr) :=
  [(nameAftonbladet, ⟨13, 13, 17, 208⟩), (nameGoogle, ⟨192, 168, 0, 1⟩)]

end Machine

/-- LENW: the least w with 2^w > MAX_LEN (R35). -/
def Config.lenw (c : Config) : Nat :=
  if c.maxLen = 0 then 0 else Nat.log2 c.maxLen + 1

/-- What R6, R7 and R8 require of the parameters: room for a header, an operand wider than 32 bits, a table that is a map. -/
abbrev Config.wf (c : Config) : Prop :=
  12 ≤ c.maxLen ∧ 33 ≤ c.valw ∧ (c.table.map Prod.fst).Nodup

/-- The configuration that State.reset stands in. DESIGN CHOICE (unsafe): the spec leaves all four open; 512 and 64 are what the vectors of 95_test_vectors.md assume, TABLE_SRC is all of the table the source gives, and the default address is a free value; entries 3 and 4. -/
def Config.machine : Config :=
  { maxLen := 512, valw := 64, table := Machine.tableSrc, defaultAddr := Config.freeDefaultAddr }

end Sys2Proof
end

