-- ==== Sys2Proof/Machine/Registers.lean ====
section
/-! DEFINITION. The register names and numbers (R31), what a register holds as the host sees it, and the host's actions and reset as the inputs of the machine (R40-R46, R230). -/

namespace Sys2Proof.Machine

/-- The registers and buffers of R31. -/
inductive Reg where
  | status | cur | rxlen | txlen | txvalid | namelen | val
  | id | fw | qd | an | ns | ar
  | qr | opc | aa | tc | rd | ra | z | rc
  | qtype | qclass | addr | src | dst
  | rx | tx | name
deriving DecidableEq, Repr

/-- The register numbers of R31; the three buffers have none. -/
def regNumber : Reg → Option Nat
  | .status => some 0 | .cur => some 1 | .rxlen => some 2 | .txlen => some 3
  | .txvalid => some 4 | .namelen => some 5 | .val => some 6
  | .id => some 7 | .fw => some 8 | .qd => some 9 | .an => some 10 | .ns => some 11 | .ar => some 12
  | .qr => some 13 | .opc => some 14 | .aa => some 15 | .tc => some 16
  | .rd => some 17 | .ra => some 18 | .z => some 19 | .rc => some 20
  | .qtype => some 21 | .qclass => some 22 | .addr => some 23 | .src => some 24 | .dst => some 25
  | .rx => none | .tx => none | .name => none

/-- A value as HOSTWR carries it and HOSTRD returns it: a number, a byte string (buffers and ADDR), or a peer tag. -/
inductive RegValue where
  | word (n : Nat)
  | octets (s : Octets)
  | peer (p : Peer)
deriving DecidableEq, Repr

/-- The column "host may write" of R31: the registers HOSTWR is defined for (R42). NAMELEN is written with NAME only (entry 12), RXLEN and SRC by DELIVER only, TXLEN by TXCLR only. -/
def hostMayWrite : Reg → Bool
  | .status => false | .cur => true | .rxlen => false | .txlen => false
  | .txvalid => false | .namelen => false | .val => true
  | .id => true | .fw => true | .qd => true | .an => true | .ns => true | .ar => true
  | .qr => true | .opc => true | .aa => true | .tc => true
  | .rd => true | .ra => true | .z => true | .rc => true
  | .qtype => true | .qclass => true | .addr => true | .src => false | .dst => false
  | .rx => false | .tx => false | .name => true

/-- The width in bits of a register that holds a number (R31); none for octet strings and peer tags. -/
def regWidth (c : Config) : Reg → Option Nat
  | .status => some 3
  | .cur => some c.lenw | .rxlen => some c.lenw | .txlen => some c.lenw | .namelen => some c.lenw
  | .txvalid => some 1 | .val => some c.valw
  | .id => some 16 | .fw => some 16 | .qd => some 16 | .an => some 16 | .ns => some 16 | .ar => some 16
  | .qr => some 1 | .opc => some 4 | .aa => some 1 | .tc => some 1
  | .rd => some 1 | .ra => some 1 | .z => some 3 | .rc => some 4
  | .qtype => some 16 | .qclass => some 16
  | .addr => none | .src => none | .dst => none | .rx => none | .tx => none | .name => none

/-- A value of exactly the register's width (R31, R42): a number below 2^width (for CUR too, also above MAX_LEN: entry 11), four octets for ADDR, at most MAX_LEN octets for NAME. -/
def valueFits (c : Config) (r : Reg) (v : RegValue) : Bool :=
  match r, v with
  | .addr, .octets s => s.length == 4
  | .name, .octets s => decide (s.length ≤ c.maxLen)
  | r, .word n =>
    match regWidth c r with
    | some w => decide (n < 2 ^ w)
    | none => false
  | _, _ => false

/-- The six actions of the host (R40). -/
inductive HostAction where
  /-- DELIVER(payload, peer), R41. -/
  | deliver (payload : Octets) (peer : Peer)
  /-- HOSTWR(reg, v), R42. -/
  | hostwr (r : Reg) (v : RegValue)
  /-- HOSTRD(reg), R44. -/
  | hostrd (r : Reg)
  /-- TXCLR, R43. -/
  | txclr
  /-- ISSUE(c), c a 4-bit command word, R45. -/
  | issue (c : BitVec 4)
  /-- SEND, R46. -/
  | send
deriving DecidableEq, Repr

/-- What can reach the block from outside: a host action, or reset (R230). -/
inductive Input where
  | host (a : HostAction)
  | reset
deriving DecidableEq, Repr

/-- What the block gives to the outside: a HOSTRD result (R44), or a datagram sent to a peer (R46). -/
inductive Output where
  | read (r : Reg) (v : RegValue)
  | datagram (payload : Octets) (peer : Peer)
deriving DecidableEq, Repr

end Sys2Proof.Machine
end

