-- ==== Sys2Proof/Machine/State.lean ====
section
/-! DEFINITION. The state of the machine (10_state.md), its reset value (R47), and the reasons a step can stop. -/

namespace Sys2Proof.Machine

/-- The octets a buffer is known to hold: pairs of index and octet, indices strictly rising. An index not listed has no value of its own: its octet is unspecified (R47, U17); entry 6. -/
abbrev Memory := List Host.Cell

/-- A buffer of MAX_LEN octets (R50). `epoch` is the model's own: it counts the events that made octets of the buffer unspecified, so that each such event draws new free octets; entry 6. -/
structure Buffer where
  cells : Memory
  epoch : Nat
deriving DecidableEq, Repr

/-- The six header registers (R24). -/
structure Header where
  id : Half
  fw : Half
  qd : Half
  an : Half
  ns : Half
  ar : Half
deriving DecidableEq, Repr

/-- The eight flag-field registers (R25). -/
structure FlagFields where
  qr : BitVec 1
  opc : BitVec 4
  aa : BitVec 1
  tc : BitVec 1
  rd : BitVec 1
  ra : BitVec 1
  z : BitVec 3
  rc : BitVec 4
deriving DecidableEq, Repr

/-- The state: the registers and buffers of R31, the configuration (R34), and the model's own record of what is still to come from outside and what has gone out. -/
structure State where
  /-- The parameters of the block, which no step changes (R34, R231); entry 3. -/
  cfg : Config
  /-- STATUS (R21). -/
  status : BitVec 3
  /-- CUR, the cursor into RX (R26); below 2^LENW. -/
  cur : Nat
  /-- RX (R22). -/
  rx : Buffer
  /-- RXLEN (R22). -/
  rxlen : Nat
  /-- SRC (R22). -/
  src : Peer
  /-- TX (R23). -/
  tx : Buffer
  /-- TXLEN (R23). -/
  txlen : Nat
  /-- TXVALID (R23). -/
  txvalid : Bool
  /-- DST (R23). -/
  dst : Peer
  /-- NAME (R27). -/
  name : Buffer
  /-- NAMELEN (R27). -/
  namelen : Nat
  /-- VAL (R30); below 2^VALW. -/
  val : Nat
  /-- ID, FW, QD, AN, NS, AR (R24). -/
  hdr : Header
  /-- QR, OPC, AA, TC, RD, RA, Z, RC (R25). -/
  flags : FlagFields
  /-- QTYPE (R28). -/
  qtype : Half
  /-- QCLASS (R28). -/
  qclass : Half
  /-- ADDR (R29). -/
  addr : Addr
  /-- The model's own: the host actions and resets still to happen, oldest first; entry 1. -/
  inputs : List Input
  /-- The model's own: what the outside has received, oldest first; entry 14. -/
  outputs : List Output
  /-- The model's own: how many reset events have happened; entry 5. -/
  resets : Nat
deriving DecidableEq, Repr

/-- The faults a command raises (R200). Each is taken as a NEXT state by `takeFault`: it is not a stop of the machine. -/
inductive CommandFault where
  | malformedMessage
  | unsupportedOpcode
  | nameEncode
  | txOverflow
  | illegalCommand
  | operandRange
deriving DecidableEq, Repr

/-- Why the machine stops: the host did something for which the spec has no move (U18: "stuck"). No command raises one. -/
inductive Fault where
  /-- DELIVER of a payload longer than MAX_LEN (R41, R241). Raised by `deliver`. Unsafe: a real host that did it would go on; entry 10. -/
  | deliverTooLong
  /-- HOSTWR of a register the host may not write (R31, R42), NAMELEN alone among them (entry 12). Raised by `hostWrite`. Unsafe in the same way; entry 10. -/
  | hostWriteForbidden (r : Reg)
  /-- HOSTWR of a value that is not exactly of the register's width (R31, R42; CUR above MAX_LEN is of its width, entry 11). Raised by `hostWrite`. Unsafe in the same way; entry 10. -/
  | hostWriteBadValue (r : Reg)
  /-- SEND when TXVALID = 0 (R46, R242). Raised by `send`. Unsafe in the same way; entry 10. -/
  | sendWithoutReply
deriving DecidableEq, Repr

/-- Why there is no meaning. -/
inductive Refusal where
  /-- An instruction that has no meaning yet. Raised by no arm: every command has its meaning. Safe. -/
  | notModelled (mnemonic : String)
deriving DecidableEq, Repr

/-- The three outcomes of a step over this State. -/
abbrev Result := Host.Outcome State Fault Refusal

/-- The state after reset number `k` of a block configured as `c` (R47): the six registers the spec resets are 0, every other register holds a free value of its width, no octet of a buffer is known. -/
def State.resetWith (c : Config) (k : Nat) : State :=
  { cfg := c
    status := 0
    cur := 0
    rx := { cells := [], epoch := 0 }
    rxlen := 0
    src := Config.freeReg k 24
    tx := { cells := [], epoch := 0 }
    txlen := 0
    txvalid := false
    dst := Config.freeReg k 25
    name := { cells := [], epoch := 0 }
    namelen := 0
    val := Config.freeReg k 6 % 2 ^ c.valw
    hdr :=
      { id := BitVec.ofNat 16 (Config.freeReg k 7)
        fw := BitVec.ofNat 16 (Config.freeReg k 8)
        qd := BitVec.ofNat 16 (Config.freeReg k 9)
        an := BitVec.ofNat 16 (Config.freeReg k 10)
        ns := BitVec.ofNat 16 (Config.freeReg k 11)
        ar := BitVec.ofNat 16 (Config.freeReg k 12) }
    flags :=
      { qr := BitVec.ofNat 1 (Config.freeReg k 13)
        opc := BitVec.ofNat 4 (Config.freeReg k 14)
        aa := BitVec.ofNat 1 (Config.freeReg k 15)
        tc := BitVec.ofNat 1 (Config.freeReg k 16)
        rd := BitVec.ofNat 1 (Config.freeReg k 17)
        ra := BitVec.ofNat 1 (Config.freeReg k 18)
        z := BitVec.ofNat 3 (Config.freeReg k 19)
        rc := BitVec.ofNat 4 (Config.freeReg k 20) }
    qtype := BitVec.ofNat 16 (Config.freeReg k 21)
    qclass := BitVec.ofNat 16 (Config.freeReg k 22)
    addr := Config.freeAddr k
    inputs := []
    outputs := []
    resets := k }

/-- The machine right after its first reset, with no host action yet to come (R47); entries 1, 3, 5. -/
def State.reset : State := State.resetWith Config.machine 0

end Sys2Proof.Machine
end

