-- ==== Sys2Proof/Machine/Ops.lean ====
section
/-! DEFINITION. The named operations over buffers and registers, and taking a fault: the one way in which a command ends (R200, R206). -/

namespace Sys2Proof.Machine

/-! ### The octets a buffer is known to hold -/

/-- What index `a` is known to hold; nothing when no entry lists it. -/
def Memory.read? : Memory → Nat → Option Byte
  | [], _ => none
  | (k, v) :: m, a => if k = a then some v else Memory.read? m a

/-- One octet written, the list kept in rising order. An unlisted index has no value, so no write removes an entry. -/
def Memory.write : Memory → Nat → Byte → Memory
  | [], a, b => [(a, b)]
  | (k, v) :: m, a, b =>
    if a < k then (a, b) :: (k, v) :: m
    else if a = k then (a, b) :: m
    else (k, v) :: Memory.write m a b

/-- `s` written from index `a` up, in increasing order (R56). -/
def Memory.writeAll : Memory → Nat → Octets → Memory
  | m, _, [] => m
  | m, a, b :: s => Memory.writeAll (Memory.write m a b) (a + 1) s

/-- The memory that lists exactly `s` from index `a` up. -/
def Memory.listFrom : Nat → Octets → Memory
  | _, [] => []
  | a, b :: s => (a, b) :: Memory.listFrom (a + 1) s

/-- The canonical form: indices strictly rising. -/
abbrev Memory.wf (m : Memory) : Prop := m.Pairwise (fun c d => c.1 < d.1)

/-- The buffers' numbers in the free values of Config. -/
abbrev rxNo : Nat := 0
/-- The number of TX. -/
abbrev txNo : Nat := 1
/-- The number of NAME. -/
abbrev nameNo : Nat := 2

/-- The octet at index `a` of buffer number `k`: the one listed, else a free value (R47, U17); entry 6. Reading changes nothing (R59). -/
def Buffer.octet (k : Nat) (b : Buffer) (a : Nat) : Byte :=
  (Memory.read? b.cells a).getD (Config.freeOctet k b.epoch a)

/-- The byte string `BUF[0 ..< n]` (R12). -/
def Buffer.bytes (k : Nat) (b : Buffer) (n : Nat) : Octets :=
  (List.range n).map (fun a => Buffer.octet k b a)

/-- `BUF[a ..< a + len(s)] <- s`; every other octet keeps what it is known to hold (R14 MemWrite). -/
def Buffer.store (b : Buffer) (a : Nat) (s : Octets) : Buffer :=
  { cells := Memory.writeAll b.cells a s, epoch := b.epoch + 1 }

/-- The buffer that holds `s` from index 0 and is unspecified beyond it (R41, R58). -/
def Buffer.load (b : Buffer) (s : Octets) : Buffer :=
  { cells := Memory.listFrom 0 s, epoch := b.epoch + 1 }

/-- Every octet becomes unspecified (R207, R230). -/
def Buffer.forget (b : Buffer) : Buffer :=
  { cells := [], epoch := b.epoch + 1 }

/-- The octets stay what they are known to be; those beyond the valid length are drawn anew (entry 7). -/
def Buffer.touch (b : Buffer) : Buffer :=
  { cells := b.cells, epoch := b.epoch + 1 }

/-! ### Register writes -/

/-- `STATUS <- c` (R21). -/
def State.setStatus (s : State) (c : BitVec 3) : State := { s with status := c }

/-- `CUR <- o` (R14). -/
def State.setCur (s : State) (o : Nat) : State := { s with cur := o }

/-- `NAME <- n`: the octets and `NAMELEN <- len(n)` together (R27, R58). -/
def State.setName (s : State) (n : Octets) : State :=
  { s with name := s.name.load n, namelen := n.length }

/-- `(ID, FW, QD, AN, NS, AR) <- h` (R24). -/
def State.setHdr (s : State) (h : Header) : State := { s with hdr := h }

/-- `(QR, OPC, AA, TC, RD, RA, Z, RC) <- f` (R25). -/
def State.setFlags (s : State) (f : FlagFields) : State := { s with flags := f }

/-- `QTYPE <- t ; QCLASS <- c` (R28). -/
def State.setQuery (s : State) (t c : Half) : State := { s with qtype := t, qclass := c }

/-- `ADDR <- a` (R29). -/
def State.setAddr (s : State) (a : Addr) : State := { s with addr := a }

/-- `TX[a ..< a + len(b)] <- b ; TXLEN <- a + len(b)`: the one store into TX (R57, R173, R193). -/
def State.storeTx (s : State) (a : Nat) (b : Octets) : State :=
  { s with tx := s.tx.store a b, txlen := a + b.length }

/-- `TXLEN <- 0`, the octets of TX unchanged (R43). -/
def State.clearTx (s : State) : State := { s with tx := s.tx.touch, txlen := 0 }

/-- `TXVALID <- v` (R23). -/
def State.setTxvalid (s : State) (v : Bool) : State := { s with txvalid := v }

/-- `DST <- p` (R23). -/
def State.setDst (s : State) (p : Peer) : State := { s with dst := p }

/-- The octets of TX become unspecified (R207). -/
def State.forgetTx (s : State) : State := { s with tx := s.tx.forget }

/-! ### How a command ends -/

/-- The STATUS code of a fault (R200). -/
def CommandFault.code : CommandFault → BitVec 3
  | .malformedMessage => 1
  | .unsupportedOpcode => 2
  | .nameEncode => 3
  | .txOverflow => 4
  | .illegalCommand => 5
  | .operandRange => 6

/-- Taking a fault: `STATUS <- code`. No state is saved, no mode changes, control goes nowhere (R206); `s` is the state the fault leaves, which for every command but RESPOND is the one before the ISSUE. There is no return from a fault (R211). -/
def takeFault (f : CommandFault) (s : State) : Result := .next (s.setStatus f.code)

/-- The end of a command other than RESPOND: its writes and `STATUS <- 0`, or its fault with every write discarded (R14 raise, R206). -/
def endLeaf (s : State) (r : Except CommandFault State) : Result :=
  match r with
  | .ok t => .next (t.setStatus 0)
  | .error f => takeFault f s

end Sys2Proof.Machine
end

