-- ==== Sys2Proof/Machine/Operands.lean ====
section
/-! DEFINITION. The forms in which commands reach the buffers (R193): RX from its first octet, RX to the cursor, NAME whole, TX appended. The form "RX from cursor" is `parseName` on RX (R113). -/

namespace Sys2Proof.Machine

/-- The slice `s[a ..< a + n]` of a byte string (R12). -/
def slice (s : Octets) (a n : Nat) : Octets := (s.drop a).take n

/-- `RX[0 ..< RXLEN]`: all of RX that a command may read (R22, R55). -/
def State.rxBytes (s : State) : Octets := s.rx.bytes rxNo s.rxlen

/-- `TX[0 ..< TXLEN]`: the valid octets of TX (R23). -/
def State.txBytes (s : State) : Octets := s.tx.bytes txNo s.txlen

/-- `NAME`, the byte string `NAME[0 ..< NAMELEN]` (R27, R58). -/
def State.nameBytes (s : State) : Octets := s.name.bytes nameNo s.namelen

/-- The form "RX absolute": `RX[0 ..< 12]`, the header (R141, R193). -/
def State.rxHead (s : State) : Octets := slice s.rxBytes 0 hdrLen

/-- The form "RX slice to cursor": `RX[12 ..< CUR]`, the question echo (R142, R193). -/
def State.questionEcho (s : State) : Octets := slice s.rxBytes hdrLen (s.cur - hdrLen)

/-- The form "TX append": all of `b` at TXLEN, or TxOverflow and nothing (R57). -/
def State.append (s : State) (b : Octets) : Except CommandFault State :=
  if s.cfg.maxLen < s.txlen + b.length then .error .txOverflow
  else .ok (s.storeTx s.txlen b)

/-- ADDR as a byte string, `ADDR[0]` first (R29). -/
def addrOctets (a : Addr) : Octets := [a.b0, a.b1, a.b2, a.b3]

end Sys2Proof.Machine
end

