-- ==== Sys2Proof/Machine/Primitive.lean ====
section
/-! DEFINITION. Primitive Codec (40_primitive_codec.md): the integer packers, the 16-bit read, and the commands PACK16 and PACK32. -/

namespace Sys2Proof.Machine

/-- `pack16(v)`: big-endian, v reduced modulo 2^16; never raises (R74, R100). -/
def pack16 (v : Nat) : Octets :=
  [BitVec.ofNat 8 ((v % 2 ^ 16) >>> 8), BitVec.ofNat 8 (v % 2 ^ 16)]

/-- `pack32(v)`: big-endian, v reduced modulo 2^32; never raises (R84, R101). -/
def pack32 (v : Nat) : Octets :=
  [BitVec.ofNat 8 ((v % 2 ^ 32) >>> 24), BitVec.ofNat 8 ((v % 2 ^ 32) >>> 16),
   BitVec.ofNat 8 ((v % 2 ^ 32) >>> 8), BitVec.ofNat 8 (v % 2 ^ 32)]

/-- The octet `s[i]` of a byte string. Every caller has checked `i < len(s)` first (R55), so the default is never used; entry 15. -/
def octetAt (s : Octets) (i : Nat) : Byte := s.getD i 0

/-- `be16(s, o) = (s[o] << 8) | s[o+1]` (R12, R74). -/
def be16 (s : Octets) (o : Nat) : Half :=
  ((octetAt s o).setWidth 16 <<< 8) ||| (octetAt s (o + 1)).setWidth 16

/-- PACK16 (R102). -/
def execPack16 (s : State) : Result := endLeaf s (s.append (pack16 s.val))

/-- PACK32 (R103). -/
def execPack32 (s : State) : Result := endLeaf s (s.append (pack32 s.val))

end Sys2Proof.Machine
end

