-- ==== Sys2Proof/Machine/Label.lean ====
section
/-! DEFINITION. Label Codec (41_label_codec.md): names between dotted form and label form, and the commands PACKNAME and PARSENAME. -/

namespace Sys2Proof.Machine

/-- `split(n)`: the maximal pieces between the DOT octets, in order: one more than there are DOTs (R110). -/
def splitDots : Octets → List Octets
  | [] => [[]]
  | b :: n =>
    if b = dot then [] :: splitDots n
    else
      match splitDots n with
      | [] => [[b]]
      | l :: ls => (b :: l) :: ls

/-- A label the encoder accepts: 1 to 63 octets (R111). -/
def labelOk (l : Octets) : Bool := decide (1 ≤ l.length) && decide (l.length ≤ maxLabel)

/-- A label on the wire: its length octet, then its octets (R79). -/
def labelWire (l : Octets) : Octets := BitVec.ofNat 8 l.length :: l

/-- The label form of a list of labels, ended by the terminator (R79). -/
def labelForm (ls : List Octets) : Octets := ls.flatMap labelWire ++ [0x00]

/-- `pack_name(n)`: the whole name is validated before any octet is produced; the empty name is the terminator alone (R110, R111). -/
def packName (n : Octets) : Except CommandFault Octets :=
  if n = [] then .ok [0x00]
  else if (splitDots n).all labelOk then .ok (labelForm (splitDots n))
  else .error .nameEncode

/-- The loop of `parse_name` (R113). `fuel` bounds the turns: each turn that goes on advances the cursor by at least 2, so `stop + 1` turns are never used up; entry 15. -/
def parseLoop : (fuel : Nat) → (s : Octets) → (cur stop : Nat) → (name : Octets) → (first : Bool) →
    Except CommandFault (Octets × Nat)
  | 0, _, _, _, _, _ => .error .malformedMessage
  | fuel + 1, s, cur, stop, name, first =>
    if stop ≤ cur then .error .malformedMessage
    else if (octetAt s cur).toNat = 0 then .ok (name, cur + 1)
    else if maxLabel < (octetAt s cur).toNat then .error .malformedMessage
    else if stop < cur + 1 + (octetAt s cur).toNat then .error .malformedMessage
    else
      parseLoop fuel s (cur + 1 + (octetAt s cur).toNat) stop
        ((if first then name else name ++ [dot]) ++ slice s (cur + 1) (octetAt s cur).toNat) false

/-- `parse_name(s, off, end)`: the name in dotted form and the offset after its terminator, no octet at or beyond `stop` read (R113). -/
def parseName (s : Octets) (off stop : Nat) : Except CommandFault (Octets × Nat) :=
  parseLoop (stop + 1) s off stop [] true

/-- PACKNAME (R112). -/
def execPackname (s : State) : Result :=
  endLeaf s (match packName s.nameBytes with
    | .error f => .error f
    | .ok b => s.append b)

/-- PARSENAME (R115). -/
def execParsename (s : State) : Result :=
  endLeaf s (match parseName s.rxBytes s.cur s.rxlen with
    | .error f => .error f
    | .ok (n, next) => .ok ((s.setName n).setCur next))

end Sys2Proof.Machine
end

