-- ==== Sys2Proof/Machine/AnswerBuilder.lean ====
section
/-! DEFINITION. Answer Builder (45_answer_builder.md): the address record, and the command ANSBUILD. -/

namespace Sys2Proof.Machine

/-- `ans_build(n, a)`: the packed name, type 1, class 1, TTL 600, data length 4 and the four address octets, whatever was asked (R83, R160). -/
def ansBuild (n : Octets) (a : Addr) : Except CommandFault Octets :=
  match packName n with
  | .error f => .error f
  | .ok p =>
    .ok (p ++ pack16 typeAddress ++ pack16 classInternet ++ pack32 ttlSeconds ++
      pack16 rdlengthAddress ++ addrOctets a)

/-- ANSBUILD: NameEncode is tested before TxOverflow (R161, R209). -/
def execAnsbuild (s : State) : Result :=
  endLeaf s (match ansBuild s.nameBytes s.addr with
    | .error f => .error f
    | .ok b => s.append b)

end Sys2Proof.Machine
end

