-- ==== Sys2Proof/Machine/Flags.lean ====
section
/-! DEFINITION. The flag word: its layout and its two octets (R53, R75, R76, R130-R132). The layout is this block's own (C1, D4). -/

namespace Sys2Proof.Machine

/-- `flags_word`: QR at bit 0, OPC at 4..1, AA 5, TC 6, RD 7, RA 8, Z at 11..9, RC at 15..12 (R130). -/
def flagsWord (f : FlagFields) : Half :=
  f.qr.setWidth 16 ||| (f.opc.setWidth 16 <<< 1) ||| (f.aa.setWidth 16 <<< 5) |||
    (f.tc.setWidth 16 <<< 6) ||| (f.rd.setWidth 16 <<< 7) ||| (f.ra.setWidth 16 <<< 8) |||
    (f.z.setWidth 16 <<< 9) ||| (f.rc.setWidth 16 <<< 12)

/-- `flags_unpack`: every 16-bit value decodes (R131). -/
def flagsUnpack (w : Half) : FlagFields :=
  { qr := w.setWidth 1
    opc := (w >>> 1).setWidth 4
    aa := (w >>> 5).setWidth 1
    tc := (w >>> 6).setWidth 1
    rd := (w >>> 7).setWidth 1
    ra := (w >>> 8).setWidth 1
    z := (w >>> 9).setWidth 3
    rc := (w >>> 12).setWidth 4 }

/-- `flags_octets`: the first octet is the low-order one (R132). -/
def flagsOctets (w : Half) : Octets := [w.setWidth 8, (w >>> 8).setWidth 8]

/-- `flags_from_octets(f0, f1) = f0 | (f1 << 8)` (R132). -/
def flagsFromOctets (f0 f1 : Byte) : Half := f0.setWidth 16 ||| (f1.setWidth 16 <<< 8)

/-- `flags_pack` (R132). -/
def flagsPack (f : FlagFields) : Octets := flagsOctets (flagsWord f)

/-- The reply flags: QR, AA, RD and RA set, the opcode given, all else 0 (R78, R142). -/
def replyFlags (opc : BitVec 4) : FlagFields :=
  { qr := 1, opc := opc, aa := 1, tc := 0, rd := 1, ra := 1, z := 0, rc := 0 }

end Sys2Proof.Machine
end

