-- ==== Sys2Proof/Machine/HeaderCodec.lean ====
section
/-! DEFINITION. Header Codec (43_header_codec.md): the 12-octet header, and the commands HDRUNPACK and HDRPACK. -/

namespace Sys2Proof.Machine

/-- `hdr_unpack(s)`: six fields at fixed offsets, big-endian but for the flags (R73, R140). -/
def hdrUnpack (s : Octets) : Header :=
  { id := be16 s 0
    fw := flagsFromOctets (octetAt s 2) (octetAt s 3)
    qd := be16 s 4
    an := be16 s 6
    ns := be16 s 8
    ar := be16 s 10 }

/-- `hdr_pack(id, opc, qd, an, qbytes)`: the reply header and the question echo (R142). -/
def hdrPack (id : Half) (opc : BitVec 4) (qd an : Half) (qbytes : Octets) : Octets :=
  pack16 id.toNat ++ flagsPack (replyFlags opc) ++ pack16 qd.toNat ++ pack16 an.toNat ++
    pack16 0 ++ pack16 0 ++ qbytes

/-- HDRUNPACK: the incoming CUR is ignored (R141). -/
def execHdrunpack (s : State) : Result :=
  endLeaf s
    (if s.rxlen < hdrLen then .error .malformedMessage
     else .ok ((s.setHdr (hdrUnpack s.rxHead)).setCur hdrLen))

/-- HDRPACK: OperandRange is tested before TxOverflow (R143, R209). -/
def execHdrpack (s : State) : Result :=
  endLeaf s
    (if s.cur < hdrLen ∨ s.rxlen < s.cur then .error .operandRange
     else s.append (hdrPack s.hdr.id s.flags.opc s.hdr.qd s.hdr.an s.questionEcho))

end Sys2Proof.Machine
end

