-- ==== Sys2Proof/Machine/QuestionCodec.lean ====
section
/-! DEFINITION. Question Codec (44_question_codec.md): one question at a cursor, and the command QUNPACK. -/

namespace Sys2Proof.Machine

/-- What `q_unpack` returns: the name in dotted form, type, class, and the offset after the question (R150). -/
structure Question where
  name : Octets
  qtype : Half
  qclass : Half
  next : Nat
deriving DecidableEq, Repr

/-- `q_unpack(s, off, end)`: all four or MalformedMessage; type and class are not tested (R150). -/
def qUnpack (s : Octets) (off stop : Nat) : Except CommandFault Question :=
  match parseName s off stop with
  | .error f => .error f
  | .ok (n, c) =>
    if stop < c + 4 then .error .malformedMessage
    else .ok { name := n, qtype := be16 s c, qclass := be16 s (c + 2), next := c + 4 }

/-- `NAME <- n ; QTYPE <- t ; QCLASS <- c ; CUR <- next` (R151, R173). -/
def State.setQuestion (s : State) (q : Question) : State :=
  ((s.setName q.name).setQuery q.qtype q.qclass).setCur q.next

/-- QUNPACK (R151). -/
def execQunpack (s : State) : Result :=
  endLeaf s (match qUnpack s.rxBytes s.cur s.rxlen with
    | .error f => .error f
    | .ok q => .ok (s.setQuestion q))

end Sys2Proof.Machine
end

