-- ==== Sys2Proof/Machine/Dispatcher.lean ====
section
/-! DEFINITION. Dispatcher (46_frame_parser.md): the table lookup and the whole datagram; the commands LOOKUP and RESPOND. -/

namespace Sys2Proof.Machine

/-- TABLE(n), octet for octet over the whole dotted name, if `n` is a key (R8, R170). -/
def tableFind : List (Octets × Addr) → Octets → Option Addr
  | [], _ => none
  | (k, a) :: t, n => if k = n then some a else tableFind t n

/-- `lookup(n)`: TABLE(n) if `n` is a key of TABLE, else DEFAULT_ADDR; never raises (R170). -/
def lookupAddr (c : Config) (n : Octets) : Addr := (tableFind c.table n).getD c.defaultAddr

/-- LOOKUP: no hit or miss is shown (R171). -/
def execLookup (s : State) : Result :=
  endLeaf s (.ok (s.setAddr (lookupAddr s.cfg s.nameBytes)))

/-- The question loop of RESPOND, `n` questions still to decode and the answers so far in `ans`: the state and the answers after the last one, or the fault and the state its raise leaves (R173, R175, R207). -/
def respondLoop : (n : Nat) → State → (ans : Octets) → Except (CommandFault × State) (State × Octets)
  | 0, s, ans => .ok (s, ans)
  | n + 1, s, ans =>
    match qUnpack s.rxBytes s.cur s.rxlen with
    | .error f => .error (f, s)
    | .ok q =>
      let s1 := s.setQuestion q
      let s2 := s1.setAddr (lookupAddr s1.cfg s1.nameBytes)
      match ansBuild s2.nameBytes s2.addr with
      | .error f => .error (f, s2)
      | .ok a => respondLoop n s2 (ans ++ a)

/-- The lines of RESPOND before the opcode gate, when a header fits: the header into its registers, the flag fields, `CUR <- 12` (R173). -/
def respondHeader (s : State) : State :=
  ((s.setHdr (hdrUnpack s.rxHead)).setCur hdrLen).setFlags (flagsUnpack (hdrUnpack s.rxHead).fw)

/-- The lines of RESPOND after the question loop: the reply is assembled, tested against MAX_LEN and stored from offset 0, and DST and TXVALID are written (R173, R177). -/
def respondReply (s : State) (ans : Octets) : Except (CommandFault × State) State :=
  let reply := hdrPack s.hdr.id s.flags.opc s.hdr.qd s.hdr.qd s.questionEcho ++ ans
  if s.cfg.maxLen < reply.length then .error (.txOverflow, s)
  else .ok (((s.storeTx 0 reply).setDst s.src).setTxvalid true)

/-- RESPOND up to its end: TXLEN and TXVALID are cleared first, unconditionally (R173). -/
def respondBody (s : State) : Except (CommandFault × State) State :=
  let s0 := s.clearTx.setTxvalid false
  if s0.rxlen < hdrLen then .error (.malformedMessage, s0)
  else
    let s1 := respondHeader s0
    if s1.flags.opc ≠ opcodeStandardQuery then .error (.unsupportedOpcode, s1)
    else
      match respondLoop s1.hdr.qd.toNat s1 [] with
      | .error e => .error e
      | .ok (s2, ans) => respondReply s2 ans

/-- RESPOND: the reply and STATUS 0, or the fault with the octets of TX unspecified and the registers written before the raise kept (R173, R207). -/
def execRespond (s : State) : Result :=
  match respondBody s with
  | .ok t => .next (t.setStatus 0)
  | .error (f, t) => takeFault f t.forgetTx

end Sys2Proof.Machine
end

