-- ==== Sys2Proof/Machine/FlagsCodec.lean ====
section
/-! DEFINITION. Flags Codec (42_flags_codec.md): the commands FLAGSUNPACK and FLAGSPACK. -/

namespace Sys2Proof.Machine

/-- FLAGSUNPACK: the eight flag fields of FW, which is not changed; no fault (R133). -/
def execFlagsunpack (s : State) : Result :=
  endLeaf s (.ok (s.setFlags (flagsUnpack s.hdr.fw)))

/-- FLAGSPACK: the two octets of the eight flag fields (R134). -/
def execFlagspack (s : State) : Result := endLeaf s (s.append (flagsPack s.flags))

end Sys2Proof.Machine
end

