-- ==== Sys2Proof/Machine/Dispatch.lean ====
section
/-! DEFINITION. One arm per command: its meaning. -/

namespace Sys2Proof.Machine

def exec (i : Instr) (s : State) : Host.Outcome State Fault Refusal :=
  match i with
  | .pack16 => Sys2Proof.Machine.execPack16 s
  | .pack32 => Sys2Proof.Machine.execPack32 s
  | .packname => Sys2Proof.Machine.execPackname s
  | .parsename => Sys2Proof.Machine.execParsename s
  | .flagsunpack => Sys2Proof.Machine.execFlagsunpack s
  | .flagspack => Sys2Proof.Machine.execFlagspack s
  | .hdrunpack => Sys2Proof.Machine.execHdrunpack s
  | .hdrpack => Sys2Proof.Machine.execHdrpack s
  | .qunpack => Sys2Proof.Machine.execQunpack s
  | .ansbuild => Sys2Proof.Machine.execAnsbuild s
  | .lookup => Sys2Proof.Machine.execLookup s
  | .respond => Sys2Proof.Machine.execRespond s

end Sys2Proof.Machine
end

