-- ==== Sys2Proof/Machine/HostActions.lean ====
section
/-! DEFINITION. The host's actions (R40-R46), and reset as an event (R230). An action for which the spec has no move stops the machine with a named fault (U18); entry 10. -/

namespace Sys2Proof.Machine

/-- DELIVER: RX, RXLEN and SRC; the octets of RX at or beyond the new RXLEN become unspecified (R41). -/
def deliver (payload : Octets) (peer : Peer) (s : State) : Result :=
  if payload.length ≤ s.cfg.maxLen then
    .next { s with rx := s.rx.load payload, rxlen := payload.length, src := peer }
  else .fault .deliverTooLong

/-- The number a value carries; used only where `valueFits` has shown that it is one. -/
def RegValue.num : RegValue → Nat
  | .word n => n
  | .octets _ => 0
  | .peer _ => 0

/-- The octets a value carries; used only where `valueFits` has shown that it is a byte string. -/
def RegValue.str : RegValue → Octets
  | .word _ => []
  | .octets b => b
  | .peer _ => []

/-- `reg <- v` for a register the host may write, with a value that fits (R42). -/
def writeReg (r : Reg) (v : RegValue) (s : State) : State :=
  match r with
  | .cur => s.setCur v.num
  | .val => { s with val := v.num }
  | .id => s.setHdr { s.hdr with id := BitVec.ofNat 16 v.num }
  | .fw => s.setHdr { s.hdr with fw := BitVec.ofNat 16 v.num }
  | .qd => s.setHdr { s.hdr with qd := BitVec.ofNat 16 v.num }
  | .an => s.setHdr { s.hdr with an := BitVec.ofNat 16 v.num }
  | .ns => s.setHdr { s.hdr with ns := BitVec.ofNat 16 v.num }
  | .ar => s.setHdr { s.hdr with ar := BitVec.ofNat 16 v.num }
  | .qr => s.setFlags { s.flags with qr := BitVec.ofNat 1 v.num }
  | .opc => s.setFlags { s.flags with opc := BitVec.ofNat 4 v.num }
  | .aa => s.setFlags { s.flags with aa := BitVec.ofNat 1 v.num }
  | .tc => s.setFlags { s.flags with tc := BitVec.ofNat 1 v.num }
  | .rd => s.setFlags { s.flags with rd := BitVec.ofNat 1 v.num }
  | .ra => s.setFlags { s.flags with ra := BitVec.ofNat 1 v.num }
  | .z => s.setFlags { s.flags with z := BitVec.ofNat 3 v.num }
  | .rc => s.setFlags { s.flags with rc := BitVec.ofNat 4 v.num }
  | .qtype => s.setQuery (BitVec.ofNat 16 v.num) s.qclass
  | .qclass => s.setQuery s.qtype (BitVec.ofNat 16 v.num)
  | .addr => s.setAddr ⟨v.str.getD 0 0, v.str.getD 1 0, v.str.getD 2 0, v.str.getD 3 0⟩
  | .name => s.setName v.str
  | .status => s
  | .rxlen => s
  | .txlen => s
  | .txvalid => s
  | .namelen => s
  | .src => s
  | .dst => s
  | .rx => s
  | .tx => s

/-- HOSTWR: one register, no other (R42). -/
def hostWrite (r : Reg) (v : RegValue) (s : State) : Result :=
  if hostMayWrite r = false then .fault (.hostWriteForbidden r)
  else if valueFits s.cfg r v = false then .fault (.hostWriteBadValue r)
  else .next (writeReg r v s)

/-- A buffer as the host reads it: `n` octets, those below the valid length `len` as they stand, those at or beyond it free (U17); entry 7. -/
def Buffer.view (k : Nat) (b : Buffer) (len n : Nat) : Octets :=
  (List.range n).map (fun a => if a < len then Buffer.octet k b a else Config.freeOctet k b.epoch a)

/-- What HOSTRD returns (R44). -/
def readReg (r : Reg) (s : State) : RegValue :=
  match r with
  | .status => .word s.status.toNat
  | .cur => .word s.cur
  | .rxlen => .word s.rxlen
  | .txlen => .word s.txlen
  | .txvalid => .word (if s.txvalid then 1 else 0)
  | .namelen => .word s.namelen
  | .val => .word s.val
  | .id => .word s.hdr.id.toNat
  | .fw => .word s.hdr.fw.toNat
  | .qd => .word s.hdr.qd.toNat
  | .an => .word s.hdr.an.toNat
  | .ns => .word s.hdr.ns.toNat
  | .ar => .word s.hdr.ar.toNat
  | .qr => .word s.flags.qr.toNat
  | .opc => .word s.flags.opc.toNat
  | .aa => .word s.flags.aa.toNat
  | .tc => .word s.flags.tc.toNat
  | .rd => .word s.flags.rd.toNat
  | .ra => .word s.flags.ra.toNat
  | .z => .word s.flags.z.toNat
  | .rc => .word s.flags.rc.toNat
  | .qtype => .word s.qtype.toNat
  | .qclass => .word s.qclass.toNat
  | .addr => .octets (addrOctets s.addr)
  | .src => .peer s.src
  | .dst => .peer s.dst
  | .rx => .octets (s.rx.view rxNo s.rxlen s.cfg.maxLen)
  | .tx => .octets (s.tx.view txNo s.txlen s.cfg.maxLen)
  | .name => .octets (s.name.view nameNo s.namelen s.cfg.maxLen)

/-- The model's record of what the outside receives (entry 14). -/
def State.emit (s : State) (o : Output) : State := { s with outputs := s.outputs ++ [o] }

/-- HOSTRD: the value goes to the host, nothing of the block changes (R44, R59). -/
def hostRead (r : Reg) (s : State) : Result := .next (s.emit (.read r (readReg r s)))

/-- TXCLR (R43). -/
def txClear (s : State) : Result := .next s.clearTx

/-- SEND: the payload TX[0 ..< TXLEN] goes to DST, no register changes; defined when TXVALID = 1 (R46). -/
def send (s : State) : Result :=
  if s.txvalid then .next (s.emit (.datagram s.txBytes s.dst)) else .fault .sendWithoutReply

/-- Reset as an event: the state of R47 again, with new free values; the configuration stays, and so do the outside's own records (R230, R231); entry 13. -/
def resetBlock (s : State) : State :=
  { State.resetWith s.cfg (s.resets + 1) with
    rx := s.rx.forget
    tx := s.tx.forget
    name := s.name.forget
    inputs := s.inputs
    outputs := s.outputs }

/-- ISSUE(c): the command `c` selects, or IllegalCommand for a reserved code, which changes nothing but STATUS (R45, R71, R205). -/
def issue (c : BitVec 4) (s : State) : Result :=
  match decodeWord c with
  | .ok i => exec i s
  | .error _ => takeFault .illegalCommand s

/-- One host action (R40). -/
def hostStep (a : HostAction) (s : State) : Result :=
  match a with
  | .deliver payload peer => deliver payload peer s
  | .hostwr r v => hostWrite r v s
  | .hostrd r => hostRead r s
  | .txclr => txClear s
  | .issue c => issue c s
  | .send => send s

end Sys2Proof.Machine
end

