-- ==== Sys2Proof/Machine/Step.lean ====
section
/-! DEFINITION. One step: the oldest input still to come happens, whole (R45, R61); with none, the block waits (R47); entries 1 and 2. -/

namespace Sys2Proof.Machine

/-- One step of the machine. -/
def step (s : State) : Host.Outcome State Fault Refusal :=
  match s.inputs with
  | [] => .next s
  | .reset :: rest => .next (resetBlock { s with inputs := rest })
  | .host a :: rest => hostStep a { s with inputs := rest }

/-- `s` with the command word `w` (bits numbered as spec/opcode_table.json numbers them) as the next thing the host does: ISSUE of it. A word that is no 4-bit command word cannot be issued and leaves `s` as it is; entries 1 and 16. -/
def State.withFetchWord (s : State) (nbits w : Nat) : State :=
  match commandWord (tableBytes nbits w) with
  | .ok c => { s with inputs := .host (.issue c) :: s.inputs }
  | .error _ => s

end Sys2Proof.Machine
end

