-- ==== Sys2Proof/WellFormed.lean ====
section
/-! DEFINITION. Well-formedness. A command has no operand, so every command is well formed (R72); what can be ill formed is a host action (R41, R42): an oversize datagram, a write of a register the host may not write, a value that is not exactly of the register's width. -/

namespace Sys2Proof

/-- Every command is well formed: the command word has no register field and no immediate (R72). -/
def Instr.wellFormed : Instr → Bool
  | .pack16 => true
  | .pack32 => true
  | .packname => true
  | .parsename => true
  | .flagsunpack => true
  | .flagspack => true
  | .hdrunpack => true
  | .hdrpack => true
  | .qunpack => true
  | .ansbuild => true
  | .lookup => true
  | .respond => true

namespace Machine

/-- The host actions that are defined whatever the state (R41, R42); SEND is defined when TXVALID = 1 (R46), which is a matter of the state. -/
def HostAction.wellFormed (c : Config) : HostAction → Bool
  | .deliver payload _ => decide (payload.length ≤ c.maxLen)
  | .hostwr r v => hostMayWrite r && valueFits c r v
  | .hostrd _ => true
  | .txclr => true
  | .issue _ => true
  | .send => true

end Machine

end Sys2Proof
end

