-- ==== Sys2Proof/Safety.lean ====
section
/-! DEFINITION. The terms claims are stated in: the invariant of the machine, what an append and a decoded question mean, names and questions on the wire, and the duties of the host (R240-R243) as a monitor beside the machine. -/

namespace Sys2Proof.Machine

/-! ### The invariant -/

/-- A buffer in order: its list canonical and within the capacity, its length within the capacity, and every octet below the length known (R22, R23, R27, R50). -/
abbrev Buffer.ok (b : Buffer) (len cap : Nat) : Prop :=
  Memory.wf b.cells ∧ (∀ c ∈ b.cells, c.1 < cap) ∧ len ≤ cap ∧
    ∀ a, a < len → (Memory.read? b.cells a).isSome = true

/-- What holds after reset and after every step: the parameters are as R6-R8 require, STATUS is never 7 (R200, U16), CUR and VAL fit their widths (R26, R30), the lengths never exceed MAX_LEN (R35), the buffers are in order. -/
abbrev State.Inv (s : State) : Prop :=
  s.cfg.wf ∧ s.status ≠ 7 ∧ s.cur < 2 ^ s.cfg.lenw ∧ s.val < 2 ^ s.cfg.valw ∧
    Buffer.ok s.rx s.rxlen s.cfg.maxLen ∧ Buffer.ok s.tx s.txlen s.cfg.maxLen ∧
    Buffer.ok s.name s.namelen s.cfg.maxLen

/-! ### What a command did -/

/-- `t` is `s` with `b` appended to TX and STATUS 0: the octets of `b` stand from TXLEN up, TXLEN has grown by their number, every other octet of TX is as it was, and nothing else of the state differs (R57, R206). Beyond the new TXLEN this is the model's store only: the host reads free octets there (U17); entry 7. -/
def appended (s t : State) (b : Octets) : Prop :=
  t.status = 0 ∧ t.txlen = s.txlen + b.length ∧
    (∀ i, i < b.length → Memory.read? t.tx.cells (s.txlen + i) = b[i]?) ∧
    (∀ a, a < s.txlen ∨ s.txlen + b.length ≤ a →
      Memory.read? t.tx.cells a = Memory.read? s.tx.cells a) ∧
    t = { s with status := t.status, tx := t.tx, txlen := t.txlen }

/-- The octet RX[a]. -/
def State.rxOctet (s : State) (a : Nat) : Byte := Buffer.octet rxNo s.rx a

/-- `h` is what the header in RX[0 ..< 12] says, big-endian but for the flags (R52, R53, R73). -/
def headerIs (s : State) (h : Header) : Prop :=
  h.id.toNat = 256 * (s.rxOctet 0).toNat + (s.rxOctet 1).toNat ∧
  h.fw.toNat = (s.rxOctet 2).toNat + 256 * (s.rxOctet 3).toNat ∧
  h.qd.toNat = 256 * (s.rxOctet 4).toNat + (s.rxOctet 5).toNat ∧
  h.an.toNat = 256 * (s.rxOctet 6).toNat + (s.rxOctet 7).toNat ∧
  h.ns.toNat = 256 * (s.rxOctet 8).toNat + (s.rxOctet 9).toNat ∧
  h.ar.toNat = 256 * (s.rxOctet 10).toNat + (s.rxOctet 11).toNat

/-- `f` is the eight fields of the flag word whose value is `w` (R130, R131). -/
def flagFieldsOf (w : Nat) (f : FlagFields) : Prop :=
  f.qr.toNat = w % 2 ∧ f.opc.toNat = w / 2 % 16 ∧ f.aa.toNat = w / 32 % 2 ∧
  f.tc.toNat = w / 64 % 2 ∧ f.rd.toNat = w / 128 % 2 ∧ f.ra.toNat = w / 256 % 2 ∧
  f.z.toNat = w / 512 % 8 ∧ f.rc.toNat = w / 4096 % 16

/-! ### Names and questions on the wire -/

/-- The dotted form of a list of labels: one DOT between consecutive ones (R13). -/
def joinDots : List Octets → Octets
  | [] => []
  | [l] => l
  | l :: m :: ls => l ++ [dot] ++ joinDots (m :: ls)

/-- Every label has 1 to 63 octets (R79). -/
abbrev labelsOk (ls : List Octets) : Prop := ∀ l ∈ ls, 1 ≤ l.length ∧ l.length ≤ 63

/-- No label contains the octet DOT (R116). -/
abbrev dotFree (ls : List Octets) : Prop := ∀ l ∈ ls, dot ∉ l

/-- The label form of the labels `ls` stands in `s` from `off` up to `next`, below `stop` (R79, R113). -/
abbrev nameAt (s : Octets) (off stop : Nat) (ls : List Octets) (next : Nat) : Prop :=
  labelsOk ls ∧ next = off + (labelForm ls).length ∧ next ≤ stop ∧
    slice s off (labelForm ls).length = labelForm ls

/-- A question: its labels, type and class. -/
structure Query where
  labels : List Octets
  qtype : Half
  qclass : Half
deriving DecidableEq, Repr

/-- A question on the wire (R82). -/
def queryWire (q : Query) : Octets :=
  labelForm q.labels ++ pack16 q.qtype.toNat ++ pack16 q.qclass.toNat

/-- The question section (R85). -/
def queriesWire (qs : List Query) : Octets := qs.flatMap queryWire

/-- The questions `qs` stand in `s` one after another from `off` up, below `stop` (R85). -/
abbrev queriesAt (s : Octets) (off stop : Nat) (qs : List Query) : Prop :=
  (∀ q ∈ qs, labelsOk q.labels) ∧ off + (queriesWire qs).length ≤ stop ∧
    slice s off (queriesWire qs).length = queriesWire qs

/-- No question stands in `s` at `off` below `stop` (R150). -/
def noQueryAt (s : Octets) (off stop : Nat) : Prop :=
  ∀ ls next, nameAt s off stop ls next → stop < next + 4

/-- The answers to `qs` under the table of `c`, one address record per question; `none` if a name cannot be encoded (R160, R175). -/
def answersTo (c : Config) : List Query → Option Octets
  | [] => some []
  | q :: qs =>
    match packName (joinDots q.labels), answersTo c qs with
    | .ok p, some rest =>
      some (p ++ [0x00, 0x01, 0x00, 0x01, 0x00, 0x00, 0x02, 0x58, 0x00, 0x04] ++
        addrOctets (lookupAddr c (joinDots q.labels)) ++ rest)
    | _, _ => none

/-- What RESPOND, issued in `s`, has written when it has decoded the header and the questions `qs` and looked each up: the header registers, the flag fields, CUR just past the last question, NAME, QTYPE, QCLASS and ADDR of the last question or, with none, as they were; what no line of RESPOND writes is as it was (R173, R207). -/
def afterQueries (s t : State) (qs : List Query) : Prop :=
  headerIs s t.hdr ∧ flagFieldsOf t.hdr.fw.toNat t.flags ∧
  t.cur = 12 + (queriesWire qs).length ∧
  (match qs.getLast? with
    | none => t.name = s.name ∧ t.namelen = s.namelen ∧ t.qtype = s.qtype ∧
        t.qclass = s.qclass ∧ t.addr = s.addr
    | some q => t.nameBytes = joinDots q.labels ∧ t.qtype = q.qtype ∧ t.qclass = q.qclass ∧
        t.addr = lookupAddr s.cfg (joinDots q.labels)) ∧
  t = { s with
        status := t.status, cur := t.cur, tx := t.tx, txlen := t.txlen, txvalid := t.txvalid,
        dst := t.dst, name := t.name, namelen := t.namelen, hdr := t.hdr, flags := t.flags,
        qtype := t.qtype, qclass := t.qclass, addr := t.addr }

/-- RESPOND dropped the datagram with STATUS `code`: no reply, DST kept, no octet of TX known (R207). -/
def dropped (s t : State) (code : BitVec 3) : Prop :=
  t.status = code ∧ t.txlen = 0 ∧ t.txvalid = false ∧ t.dst = s.dst ∧ t.tx.cells = []

/-- What the host does to build by leaf commands the reply to a datagram of `n` questions (R181). -/
def leafActions (n : Nat) : List Input :=
  [.host .txclr, .host (.issue (encode .hdrunpack)), .host (.issue (encode .flagsunpack))] ++
    List.replicate n (.host (.issue (encode .qunpack))) ++
    [.host (.hostwr .an (.word n)), .host (.issue (encode .hdrpack)), .host (.hostwr .cur (.word 12))] ++
    (List.replicate n [Input.host (.issue (encode .qunpack)), .host (.issue (encode .lookup)),
      .host (.issue (encode .ansbuild))]).flatten

/-! ### The host's duties (R240-R243) -/

/-- What a monitor of the host remembers: a reply is owed a SEND (R242), a datagram has come since reset, CUR may be left over from an earlier datagram (R243). -/
structure Duty where
  replyOwed : Bool
  datagramSeen : Bool
  cursorStale : Bool
deriving DecidableEq, Repr

/-- The commands that write TX (R31, R50). -/
def writesTx : Instr → Bool
  | .pack16 => true
  | .pack32 => true
  | .packname => true
  | .parsename => false
  | .flagsunpack => false
  | .flagspack => true
  | .hdrunpack => false
  | .hdrpack => true
  | .qunpack => false
  | .ansbuild => true
  | .lookup => false
  | .respond => true

/-- The commands that read the incoming CUR (R192). -/
def readsCursor : Instr → Bool
  | .pack16 => false
  | .pack32 => false
  | .packname => false
  | .parsename => true
  | .flagsunpack => false
  | .flagspack => false
  | .hdrunpack => false
  | .hdrpack => true
  | .qunpack => true
  | .ansbuild => false
  | .lookup => false
  | .respond => false

/-- The host keeps its duties in doing `i` now (R41, R42, R46, R241-R243). -/
def dutyAllows (d : Duty) (s : State) (i : Input) : Bool :=
  match i with
  | .reset => true
  | .host .txclr => !d.replyOwed
  | .host .send => d.replyOwed
  | .host (.issue c) =>
    match decodeWord c with
    | .ok i => !(d.replyOwed && writesTx i) && !(d.cursorStale && readsCursor i)
    | .error _ => true
  | .host a => HostAction.wellFormed s.cfg a

/-- What the monitor remembers after `i` took the machine from `s` to `t`. -/
def dutyNext (d : Duty) (s t : State) (i : Input) : Duty :=
  match i with
  | .reset => { replyOwed := false, datagramSeen := false, cursorStale := false }
  | .host (.deliver _ _) =>
    { d with datagramSeen := true, cursorStale := d.cursorStale || d.datagramSeen }
  | .host (.hostwr .cur _) => { d with cursorStale := false }
  | .host .send => { d with replyOwed := false }
  | .host (.issue c) =>
    match decodeWord c with
    | .ok .respond =>
      { d with replyOwed := t.txvalid, cursorStale := d.cursorStale && decide (s.rxlen < hdrLen) }
    | .ok .hdrunpack => { d with cursorStale := d.cursorStale && decide (t.status ≠ 0) }
    | _ => d
  | _ => d

end Sys2Proof.Machine
end

