-- ==== Sys2Proof/Certificates/Slice0/Obligations.lean ====
section
/-! DEFINITION. The statements about the machine, for the provers. -/

open Sys2Proof
open Sys2Proof.Machine

/-! ### The command word and the step -/

/-- The twelve codes of R70, each read as its command, and no other word read as one. -/
def Obligations.DecoderReadsTheCommandCodes : Prop :=
  decodeWord 0x1#4 = .ok .pack16 ∧ decodeWord 0x2#4 = .ok .pack32 ∧
  decodeWord 0x3#4 = .ok .packname ∧ decodeWord 0x4#4 = .ok .parsename ∧
  decodeWord 0x5#4 = .ok .flagsunpack ∧ decodeWord 0x6#4 = .ok .flagspack ∧
  decodeWord 0x7#4 = .ok .hdrunpack ∧ decodeWord 0x8#4 = .ok .hdrpack ∧
  decodeWord 0x9#4 = .ok .qunpack ∧ decodeWord 0xA#4 = .ok .ansbuild ∧
  decodeWord 0xB#4 = .ok .lookup ∧ decodeWord 0xC#4 = .ok .respond ∧
  ∀ c : BitVec 4, c = 0x0#4 ∨ c = 0xD#4 ∨ c = 0xE#4 ∨ c = 0xF#4 →
    decodeWord c = .error (.reserved c)

/-- Decoding an encoded command gives it back, as a word and in an octet with anything after it; and each word has one meaning. The octet that carries the word is the model's choice (entry 16). -/
def Obligations.DecodeOfEncodeIsTheCommand : Prop :=
  (∀ i : Instr, i.wellFormed = true → decodeWord (encode i) = .ok i) ∧
  (∀ (c : BitVec 4) (i : Instr), decodeWord c = .ok i → encode i = c) ∧
  (∀ (i : Instr) (rest : Octets), i.wellFormed = true →
    decode (encodeBytes i ++ rest) = .ok (i, rest))

/-- A step whose next input is ISSUE of a command's word runs that command in the state with that input taken (R45). That inputs wait in a queue is the model's choice (entry 1). -/
def Obligations.StepRunsTheIssuedCommand : Prop :=
  ∀ (s : State) (c : BitVec 4) (i : Instr) (rest : List Input),
    s.inputs = .host (.issue c) :: rest → decodeWord c = .ok i →
    step s = exec i { s with inputs := rest }

/-- A step takes the oldest input and leaves the others: a host action whole, or a reset event (R45, R61). That inputs wait in a queue is the model's choice (entry 1). -/
def Obligations.StepTakesTheOldestInput : Prop :=
  ∀ (s : State) (rest : List Input),
    (∀ a, s.inputs = .host a :: rest → step s = hostStep a { s with inputs := rest }) ∧
    (s.inputs = .reset :: rest → step s = .next (resetBlock { s with inputs := rest }))

/-- ISSUE of a reserved code raises IllegalCommand: STATUS 5, and nothing else changes (R71, R205). -/
def Obligations.ReservedCodeChangesOnlyStatus : Prop :=
  ∀ (s : State) (c : BitVec 4), c = 0x0#4 ∨ c = 0xD#4 ∨ c = 0xE#4 ∨ c = 0xF#4 →
    hostStep (.issue c) s = .next { s with status := 5 }

/-- With no input to come the block waits: the state is unchanged. The model's choice (entry 2) for R47's "it waits for the first host action". -/
def Obligations.BlockWaitsWithoutInput : Prop :=
  ∀ s : State, s.inputs = [] → step s = .next s

/-! ### Primitive Codec -/

/-- PACK16 appends VAL's low 16 bits, high octet first, when they fit; else TxOverflow and nothing else changes (R102). -/
def Obligations.Pack16AppendsLowSixteenBits : Prop :=
  decodeWord 0x1#4 = .ok .pack16 ∧ ∀ s : State,
    (s.txlen + 2 ≤ s.cfg.maxLen →
      ∃ t, exec .pack16 s = .next t ∧
        appended s t [BitVec.ofNat 8 (s.val / 256), BitVec.ofNat 8 s.val]) ∧
    (s.cfg.maxLen < s.txlen + 2 → exec .pack16 s = .next { s with status := 4 })

/-- PACK32 appends VAL's low 32 bits, highest octet first, when they fit; else TxOverflow and nothing else changes (R103). -/
def Obligations.Pack32AppendsLowThirtyTwoBits : Prop :=
  decodeWord 0x2#4 = .ok .pack32 ∧ ∀ s : State,
    (s.txlen + 4 ≤ s.cfg.maxLen →
      ∃ t, exec .pack32 s = .next t ∧
        appended s t [BitVec.ofNat 8 (s.val / 16777216), BitVec.ofNat 8 (s.val / 65536),
          BitVec.ofNat 8 (s.val / 256), BitVec.ofNat 8 s.val]) ∧
    (s.cfg.maxLen < s.txlen + 4 → exec .pack32 s = .next { s with status := 4 })

/-! ### Label Codec -/

/-- Splitting a name gives one piece more than it has DOTs, no piece contains one, and joining the pieces gives the name back (R110). -/
def Obligations.SplitPiecesRejoin : Prop :=
  ∀ n : Octets, (splitDots n).length = n.count dot + 1 ∧ dotFree (splitDots n) ∧
    joinDots (splitDots n) = n

/-- PACKNAME: NAME made of the labels `ls`. Labels of 1 to 63 octets: their label form is appended if it fits, else TxOverflow. A label empty or longer than 63: NameEncode, whether or not it would fit. The empty name is `ls = []`, and the name of one empty label is that name too (R110-R112). -/
def Obligations.PacknameAppendsTheLabelForm : Prop :=
  decodeWord 0x3#4 = .ok .packname ∧
  ∀ (s : State) (ls : List Octets), dotFree ls → s.nameBytes = joinDots ls →
    (labelsOk ls → s.txlen + (labelForm ls).length ≤ s.cfg.maxLen →
      ∃ t, exec .packname s = .next t ∧ appended s t (labelForm ls)) ∧
    (labelsOk ls → s.cfg.maxLen < s.txlen + (labelForm ls).length →
      exec .packname s = .next { s with status := 4 }) ∧
    (¬ labelsOk ls → s.nameBytes ≠ [] → exec .packname s = .next { s with status := 3 })

/-- The decoder accepts exactly the names of the grammar: it returns `(n, next)` when and only when well-formed labels whose dotted form is `n` stand from `off` to `next` in label form below the end; otherwise it raises MalformedMessage and nothing else (R79, R80, R113). -/
def Obligations.DecoderAcceptsExactlyTheNameGrammar : Prop :=
  ∀ (s : Octets) (off stop : Nat), stop ≤ s.length →
    (∀ n next, parseName s off stop = .ok (n, next) ↔
      ∃ ls, nameAt s off stop ls next ∧ n = joinDots ls) ∧
    (∀ f, parseName s off stop = .error f ↔
      f = .malformedMessage ∧ ∀ ls next, ¬ nameAt s off stop ls next)

/-- The sizes of a decoded name (R113; R114, which the spec marks as derived): it consumed the label form of labels of 1 to 63 octets, at least one octet, none at or beyond the end; its length is two less, or 0 for the name of no label; so it fits in a buffer that held the label form. -/
def Obligations.DecodedNameSizes : Prop :=
  ∀ (s : Octets) (off stop : Nat) (n : Octets) (next : Nat), stop ≤ s.length →
    parseName s off stop = .ok (n, next) →
    1 ≤ next - off ∧ next ≤ stop ∧ n.length ≤ stop ∧
    ∃ ls, labelsOk ls ∧ slice s off (next - off) = labelForm ls ∧
      (ls ≠ [] → n.length = next - off - 2) ∧ (ls = [] → n.length = 0 ∧ next = off + 1)

/-- Decoding an encoded name gives it back and consumes all of it (R116 a). -/
def Obligations.DecodingUndoesEncodingOfNames : Prop :=
  ∀ n p : Octets, packName n = .ok p → parseName p 0 p.length = .ok (n, p.length)

/-- Encoding a decoded name gives back the octets it came from when no label contains DOT; when one does, the encoder raises NameEncode or gives a label form of more labels (R116 b, which the spec marks as derived). -/
def Obligations.EncodingUndoesDecodingWithoutDots : Prop :=
  ∀ (s : Octets) (off stop : Nat) (ls : List Octets) (next : Nat), nameAt s off stop ls next →
    (dotFree ls → packName (joinDots ls) = .ok (slice s off (next - off))) ∧
    (¬ dotFree ls → packName (joinDots ls) = .error .nameEncode ∨
      ∃ ms, packName (joinDots ls) = .ok (labelForm ms) ∧ labelsOk ms ∧ ls.length < ms.length)

/-- PARSENAME: the name at the cursor goes to NAME, and CUR to just past its terminator; when no name stands there, MalformedMessage and nothing else changes (R115). -/
def Obligations.ParsenameDecodesTheNameAtTheCursor : Prop :=
  decodeWord 0x4#4 = .ok .parsename ∧ ∀ s : State,
    (∀ ls next, nameAt s.rxBytes s.cur s.rxlen ls next →
      ∃ t, exec .parsename s = .next t ∧ t.status = 0 ∧ t.nameBytes = joinDots ls ∧
        t.cur = next ∧
        t = { s with status := t.status, cur := t.cur, name := t.name, namelen := t.namelen }) ∧
    ((∀ ls next, ¬ nameAt s.rxBytes s.cur s.rxlen ls next) →
      exec .parsename s = .next { s with status := 1 })

/-- PARSENAME and QUNPACK raise MalformedMessage, and change nothing else, when the cursor is at or beyond RXLEN, when the length octet at the cursor is 64 or more, and when its label would extend beyond RXLEN (R201 b, c, d). -/
def Obligations.MalformedNameAtTheCursorFaults : Prop :=
  ∀ s : State,
    (s.rxlen ≤ s.cur ∨
      (s.cur < s.rxlen ∧ 64 ≤ (s.rxOctet s.cur).toNat) ∨
      (s.cur < s.rxlen ∧ 1 ≤ (s.rxOctet s.cur).toNat ∧
        s.rxlen < s.cur + 1 + (s.rxOctet s.cur).toNat)) →
    exec .parsename s = .next { s with status := 1 } ∧
    exec .qunpack s = .next { s with status := 1 }

/-! ### Flags Codec -/

/-- FLAGSUNPACK writes the eight fields of FW at the bit positions of R130, and nothing else but STATUS 0 (R133). -/
def Obligations.FlagsunpackWritesTheEightFields : Prop :=
  decodeWord 0x5#4 = .ok .flagsunpack ∧ ∀ s : State, ∃ t, exec .flagsunpack s = .next t ∧ t.status = 0 ∧
    flagFieldsOf s.hdr.fw.toNat t.flags ∧
    t = { s with status := t.status, flags := t.flags }

/-- FLAGSPACK appends the octet of QR, OPC, AA, TC, RD and then the octet of RA, Z, RC when they fit; else TxOverflow and nothing else changes (R134). -/
def Obligations.FlagspackAppendsTheTwoOctets : Prop :=
  decodeWord 0x6#4 = .ok .flagspack ∧ ∀ s : State,
    (s.txlen + 2 ≤ s.cfg.maxLen →
      ∃ t, exec .flagspack s = .next t ∧
        appended s t
          [BitVec.ofNat 8 (s.flags.qr.toNat + 2 * s.flags.opc.toNat + 32 * s.flags.aa.toNat +
            64 * s.flags.tc.toNat + 128 * s.flags.rd.toNat),
           BitVec.ofNat 8 (s.flags.ra.toNat + 2 * s.flags.z.toNat + 16 * s.flags.rc.toNat)]) ∧
    (s.cfg.maxLen < s.txlen + 2 → exec .flagspack s = .next { s with status := 4 })

/-- Unpacking packed flags gives the fields back through the two octets, and packing the unpacked fields of any word gives the word back (R135). -/
def Obligations.FlagsRoundTrip : Prop :=
  (∀ f : FlagFields, ∃ o0 o1, flagsPack f = [o0, o1] ∧ flagsUnpack (flagsFromOctets o0 o1) = f) ∧
  (∀ w : Half, flagsWord (flagsUnpack w) = w)

/-! ### Header Codec -/

/-- HDRUNPACK reads the six fields at their fixed offsets, sets CUR to 12 and nothing else but STATUS 0; a datagram shorter than 12 octets is MalformedMessage and nothing else changes (R141). -/
def Obligations.HdrunpackReadsTheHeader : Prop :=
  decodeWord 0x7#4 = .ok .hdrunpack ∧ ∀ s : State,
    (12 ≤ s.rxlen →
      ∃ t, exec .hdrunpack s = .next t ∧ t.status = 0 ∧ headerIs s t.hdr ∧ t.cur = 12 ∧
        t = { s with status := t.status, hdr := t.hdr, cur := t.cur }) ∧
    (s.rxlen < 12 → exec .hdrunpack s = .next { s with status := 1 })

/-- HDRPACK: with the cursor in 12 .. RXLEN, the reply header of ID, OPC, QD and AN and the octets RX[12 ..< CUR] are appended if they fit, else TxOverflow; with the cursor outside, OperandRange, whether or not they would fit (R143). -/
def Obligations.HdrpackAppendsTheReplyHeader : Prop :=
  decodeWord 0x8#4 = .ok .hdrpack ∧ ∀ s : State,
    (12 ≤ s.cur → s.cur ≤ s.rxlen → s.txlen + s.cur ≤ s.cfg.maxLen →
      ∃ t, exec .hdrpack s = .next t ∧
        appended s t
          ([BitVec.ofNat 8 (s.hdr.id.toNat / 256), BitVec.ofNat 8 s.hdr.id.toNat,
            BitVec.ofNat 8 (0xA1 + 2 * s.flags.opc.toNat), 0x01,
            BitVec.ofNat 8 (s.hdr.qd.toNat / 256), BitVec.ofNat 8 s.hdr.qd.toNat,
            BitVec.ofNat 8 (s.hdr.an.toNat / 256), BitVec.ofNat 8 s.hdr.an.toNat,
            0x00, 0x00, 0x00, 0x00] ++
            (List.range (s.cur - 12)).map (fun i => s.rxOctet (12 + i)))) ∧
    (12 ≤ s.cur → s.cur ≤ s.rxlen → s.cfg.maxLen < s.txlen + s.cur →
      exec .hdrpack s = .next { s with status := 4 }) ∧
    (s.cur < 12 ∨ s.rxlen < s.cur → exec .hdrpack s = .next { s with status := 6 })

/-- Unpacking a packed reply header gives the transaction id, the reply flags with the opcode, and the two counts back, and zeros (R144). -/
def Obligations.HeaderRoundTrip : Prop :=
  ∀ (id : Half) (opc : BitVec 4) (qd an : Half) (q : Octets),
    hdrUnpack (hdrPack id opc qd an q) =
      { id := id, fw := 0x01A1 ||| (opc.setWidth 16 <<< 1), qd := qd, an := an, ns := 0, ar := 0 }

/-! ### Question Codec -/

/-- QUNPACK: the name at the cursor and the type and class after it go to NAME, QTYPE and QCLASS, and CUR to just past them; when no question stands there, MalformedMessage and nothing else changes (R151). -/
def Obligations.QunpackDecodesTheQuestionAtTheCursor : Prop :=
  decodeWord 0x9#4 = .ok .qunpack ∧ ∀ s : State,
    (∀ ls next, nameAt s.rxBytes s.cur s.rxlen ls next → next + 4 ≤ s.rxlen →
      ∃ t, exec .qunpack s = .next t ∧ t.status = 0 ∧ t.nameBytes = joinDots ls ∧
        t.qtype.toNat = 256 * (s.rxOctet next).toNat + (s.rxOctet (next + 1)).toNat ∧
        t.qclass.toNat = 256 * (s.rxOctet (next + 2)).toNat + (s.rxOctet (next + 3)).toNat ∧
        t.cur = next + 4 ∧
        t = { s with status := t.status, cur := t.cur, name := t.name, namelen := t.namelen,
                     qtype := t.qtype, qclass := t.qclass }) ∧
    (noQueryAt s.rxBytes s.cur s.rxlen → exec .qunpack s = .next { s with status := 1 })

/-! ### Answer Builder -/

/-- ANSBUILD: the label form of NAME, type 1, class 1, TTL 600, data length 4 and ADDR are appended if they fit, else TxOverflow; a NAME with an empty or overlong label is NameEncode, whether or not it would fit (R161). -/
def Obligations.AnsbuildAppendsTheAddressRecord : Prop :=
  decodeWord 0xA#4 = .ok .ansbuild ∧
  ∀ (s : State) (ls : List Octets), dotFree ls → s.nameBytes = joinDots ls →
    (labelsOk ls → s.txlen + ((labelForm ls).length + 14) ≤ s.cfg.maxLen →
      ∃ t, exec .ansbuild s = .next t ∧
        appended s t (labelForm ls ++
          [0x00, 0x01, 0x00, 0x01, 0x00, 0x00, 0x02, 0x58, 0x00, 0x04,
            s.addr.b0, s.addr.b1, s.addr.b2, s.addr.b3])) ∧
    (labelsOk ls → s.cfg.maxLen < s.txlen + ((labelForm ls).length + 14) →
      exec .ansbuild s = .next { s with status := 4 }) ∧
    (¬ labelsOk ls → s.nameBytes ≠ [] → exec .ansbuild s = .next { s with status := 3 })

/-! ### Dispatcher -/

/-- LOOKUP writes ADDR and nothing else but STATUS 0: the address that TABLE gives NAME, or DEFAULT_ADDR when NAME is no key of it (R170, R171). -/
def Obligations.LookupReadsTheTable : Prop :=
  decodeWord 0xB#4 = .ok .lookup ∧ ∀ s : State, ∃ t, exec .lookup s = .next t ∧ t.status = 0 ∧
    ((s.cfg.table.map Prod.fst).Nodup →
      ∀ a, (s.nameBytes, a) ∈ s.cfg.table → t.addr = a) ∧
    ((∀ a, (s.nameBytes, a) ∉ s.cfg.table) → t.addr = s.cfg.defaultAddr) ∧
    t = { s with status := t.status, addr := t.addr }

/-- The source's table: its two names have the two addresses the source gives, and the names R170 says are not keys of it have the default address, whatever that is. -/
def Obligations.SourceTableAddresses : Prop :=
  ∀ c : Config, c.table = tableSrc →
    lookupAddr c nameAftonbladet = ⟨0x0D, 0x0D, 0x11, 0xD0⟩ ∧
    lookupAddr c nameGoogle = ⟨0xC0, 0xA8, 0x00, 0x01⟩ ∧
    lookupAddr c [0x57, 0x57, 0x57, 0x2E, 0x47, 0x4F, 0x4F, 0x47, 0x4C, 0x45, 0x2E, 0x53, 0x45] =
      c.defaultAddr ∧
    lookupAddr c (nameGoogle ++ [dot]) = c.defaultAddr

/-- RESPOND answers: a datagram with a header of opcode 0 whose question count is the number of the questions `qs` that stand after it, each name encodable and the reply within MAX_LEN, gets the reply of R86: id, the octets A1 01, both counts the question count, zeros, the questions as received, one address record per question. It is in TX from offset 0, valid, for the datagram's sender; STATUS is 0; the registers are those of the last question; no octet of TX outside the reply and nothing else changes. -/
def Obligations.RespondAnswersEveryQuestion : Prop :=
  ∀ (s : State) (qs : List Query) (ans : Octets), 12 ≤ s.rxlen →
    (s.rxOctet 2).toNat / 2 % 16 = 0 →
    256 * (s.rxOctet 4).toNat + (s.rxOctet 5).toNat = qs.length →
    queriesAt s.rxBytes 12 s.rxlen qs → answersTo s.cfg qs = some ans →
    12 + (queriesWire qs).length + ans.length ≤ s.cfg.maxLen →
    ∃ t, exec .respond s = .next t ∧ t.status = 0 ∧ t.txvalid = true ∧ t.dst = s.src ∧
      t.txBytes = [s.rxOctet 0, s.rxOctet 1, 0xA1, 0x01, s.rxOctet 4, s.rxOctet 5,
        s.rxOctet 4, s.rxOctet 5, 0x00, 0x00, 0x00, 0x00] ++ queriesWire qs ++ ans ∧
      (∀ a, t.txlen ≤ a → Memory.read? t.tx.cells a = Memory.read? s.tx.cells a) ∧
      afterQueries s t qs

/-- The opcode gate: a datagram with a header whose opcode is not 0 is dropped with UnsupportedOpcode, whatever its body; the header registers, the flag fields and CUR = 12 are written (R174). -/
def Obligations.RespondDropsOtherOpcodes : Prop :=
  ∀ s : State, 12 ≤ s.rxlen → (s.rxOctet 2).toNat / 2 % 16 ≠ 0 →
    ∃ t, exec .respond s = .next t ∧ dropped s t 2 ∧ afterQueries s t []

/-- A datagram shorter than a header is dropped with MalformedMessage, and nothing else is written (R173, R207). -/
def Obligations.RespondDropsShortDatagrams : Prop :=
  ∀ s : State, s.rxlen < 12 →
    ∃ t, exec .respond s = .next t ∧ dropped s t 1 ∧
      t = { s with status := t.status, tx := t.tx, txlen := t.txlen, txvalid := t.txvalid }

/-- A datagram in which no question stands where a declared one is due, after the answerable questions `qs`, is dropped with MalformedMessage; the registers are those of the last question decoded and CUR is at the start of the bad one (R175, R207). -/
def Obligations.RespondDropsAtTheFirstBadQuestion : Prop :=
  ∀ (s : State) (qs : List Query) (ans : Octets), 12 ≤ s.rxlen →
    (s.rxOctet 2).toNat / 2 % 16 = 0 →
    qs.length < 256 * (s.rxOctet 4).toNat + (s.rxOctet 5).toNat →
    queriesAt s.rxBytes 12 s.rxlen qs → answersTo s.cfg qs = some ans →
    noQueryAt s.rxBytes (12 + (queriesWire qs).length) s.rxlen →
    ∃ t, exec .respond s = .next t ∧ dropped s t 1 ∧ afterQueries s t qs

/-- A datagram with a declared question whose name cannot be encoded, after the answerable questions `qs`, is dropped with NameEncode; the registers are those of that question and CUR is just past it (R203, R207). -/
def Obligations.RespondDropsUnencodableNames : Prop :=
  ∀ (s : State) (qs : List Query) (q : Query) (ans : Octets), 12 ≤ s.rxlen →
    (s.rxOctet 2).toNat / 2 % 16 = 0 →
    qs.length < 256 * (s.rxOctet 4).toNat + (s.rxOctet 5).toNat →
    queriesAt s.rxBytes 12 s.rxlen (qs ++ [q]) → answersTo s.cfg qs = some ans →
    packName (joinDots q.labels) = .error .nameEncode →
    ∃ t, exec .respond s = .next t ∧ dropped s t 3 ∧ afterQueries s t (qs ++ [q])

/-- A datagram whose reply would be longer than MAX_LEN is dropped with TxOverflow after all questions were decoded and all answers built (R204, R209). -/
def Obligations.RespondDropsOversizeReplies : Prop :=
  ∀ (s : State) (qs : List Query) (ans : Octets), 12 ≤ s.rxlen →
    (s.rxOctet 2).toNat / 2 % 16 = 0 →
    256 * (s.rxOctet 4).toNat + (s.rxOctet 5).toNat = qs.length →
    queriesAt s.rxBytes 12 s.rxlen qs → answersTo s.cfg qs = some ans →
    s.cfg.maxLen < 12 + (queriesWire qs).length + ans.length →
    ∃ t, exec .respond s = .next t ∧ dropped s t 4 ∧ afterQueries s t qs

/-- RESPOND answers with STATUS 0 and a valid reply to SRC within MAX_LEN, or drops the datagram with one of its four faults; nothing else happens (R200, R207). -/
def Obligations.RespondAnswersOrDrops : Prop :=
  ∀ s : State, ∃ t, exec .respond s = .next t ∧
    ((t.status = 0 ∧ t.txvalid = true ∧ t.dst = s.src ∧ 12 ≤ t.txlen ∧ t.txlen ≤ s.cfg.maxLen) ∨
      dropped s t 1 ∨ dropped s t 2 ∨ dropped s t 3 ∨ dropped s t 4)

/-- No questions: a header with opcode 0 and question count 0 gets the 12-octet reply of its id, A1 01 and zeros, where a reply of 12 octets fits (R6, R178). -/
def Obligations.RespondToZeroQuestions : Prop :=
  ∀ s : State, 12 ≤ s.cfg.maxLen → 12 ≤ s.rxlen → (s.rxOctet 2).toNat / 2 % 16 = 0 →
    s.rxOctet 4 = 0 → s.rxOctet 5 = 0 →
    ∃ t, exec .respond s = .next t ∧ t.status = 0 ∧ t.txvalid = true ∧ t.cur = 12 ∧
      t.txBytes = [s.rxOctet 0, s.rxOctet 1, 0xA1, 0x01, 0, 0, 0, 0, 0, 0, 0, 0]

/-- STATUS, TXLEN, TXVALID and TX[0 ..< TXLEN] after RESPOND depend on RX[0 ..< RXLEN] and the configuration alone, and DST after an answer is SRC (R173; R180, which the spec marks as derived). -/
def Obligations.RespondDependsOnlyOnTheDatagram : Prop :=
  ∀ s s' : State, s.cfg = s'.cfg → s.rxBytes = s'.rxBytes →
    ∃ t t', exec .respond s = .next t ∧ exec .respond s' = .next t' ∧
      t.status = t'.status ∧ t.txlen = t'.txlen ∧ t.txvalid = t'.txvalid ∧
      t.txBytes = t'.txBytes ∧ (t.status = 0 → t.dst = s.src)

/-- What RESPOND does not examine has no effect on the reply: octets after the last question, AN, NS and AR, and all of the request's flags but the opcode. A datagram that agrees with an answered one in id, question count and the octets of its questions, and has opcode 0, gets the same reply, however long it is (R179). -/
def Obligations.RespondIgnoresWhatItDoesNotExamine : Prop :=
  ∀ s s' t : State, s.cfg = s'.cfg → exec .respond s = .next t → t.status = 0 →
    t.cur ≤ s'.rxlen → (s'.rxOctet 2).toNat / 2 % 16 = 0 →
    (∀ a, a < t.cur → a = 0 ∨ a = 1 ∨ a = 4 ∨ a = 5 ∨ 12 ≤ a → s.rxOctet a = s'.rxOctet a) →
    ∃ t', exec .respond s' = .next t' ∧ t'.status = 0 ∧ t'.cur = t.cur ∧ t'.txBytes = t.txBytes

/-- For a datagram that RESPOND answers, the leaf commands that R181 lists (the spec marks it as derived), issued one after another, leave the same octets in TX, with STATUS 0, and do not touch TXVALID or DST. -/
def Obligations.LeafCommandsBuildTheSameReply : Prop :=
  ∀ (s t : State) (rest : List Input), s.Inv → exec .respond s = .next t → t.status = 0 →
    s.inputs = leafActions t.hdr.qd.toNat ++ rest →
    ∃ u, Host.Core.run Sys2Proof.core (leafActions t.hdr.qd.toNat).length s = .next u ∧
      u.txBytes = t.txBytes ∧ u.txlen = t.txlen ∧ u.status = 0 ∧ u.txvalid = s.txvalid ∧
      u.dst = s.dst ∧ u.inputs = rest

/-! ### Faults and the whole command set -/

/-- A command other than RESPOND that ends with a fault has changed nothing but STATUS (R206). -/
def Obligations.FaultingLeafChangesOnlyStatus : Prop :=
  ∀ (i : Instr) (s t : State), i ≠ .respond → exec i s = .next t → t.status ≠ 0 →
    t = { s with status := t.status }

/-- Every command ends in a next state, with STATUS 0 or the code of one of the faults R200 lists for it. -/
def Obligations.EveryCommandEndsWithItsOwnStatus : Prop :=
  ∀ (i : Instr) (s : State), ∃ t, exec i s = .next t ∧
    match i with
    | .pack16 | .pack32 | .flagspack => t.status = 0 ∨ t.status = 4
    | .packname | .ansbuild => t.status = 0 ∨ t.status = 3 ∨ t.status = 4
    | .parsename | .hdrunpack | .qunpack => t.status = 0 ∨ t.status = 1
    | .flagsunpack | .lookup => t.status = 0
    | .hdrpack => t.status = 0 ∨ t.status = 4 ∨ t.status = 6
    | .respond => t.status = 0 ∨ t.status = 1 ∨ t.status = 2 ∨ t.status = 3 ∨ t.status = 4

/-- No command writes what only the host writes (RX, RXLEN, SRC, VAL: R22, R30), the configuration (R34), or the model's own records of the outside. -/
def Obligations.CommandsLeaveHostStateAlone : Prop :=
  ∀ (i : Instr) (s t : State), exec i s = .next t →
    t.rx = s.rx ∧ t.rxlen = s.rxlen ∧ t.src = s.src ∧ t.val = s.val ∧ t.cfg = s.cfg ∧
      t.inputs = s.inputs ∧ t.outputs = s.outputs ∧ t.resets = s.resets

/-- A command changes a register only if R31 lists it as a writer of that register: in particular FW and the flag fields are separate storage (R32), and only RESPOND writes TXVALID and DST (R195). -/
def Obligations.OnlyListedCommandsWriteARegister : Prop :=
  ∀ (i : Instr) (s t : State), exec i s = .next t →
    (t.cur ≠ s.cur → i = .hdrunpack ∨ i = .parsename ∨ i = .qunpack ∨ i = .respond) ∧
    (t.txlen ≠ s.txlen ∨ t.tx ≠ s.tx → writesTx i = true) ∧
    (t.txvalid ≠ s.txvalid ∨ t.dst ≠ s.dst → i = .respond) ∧
    (t.namelen ≠ s.namelen ∨ t.name ≠ s.name → i = .parsename ∨ i = .qunpack ∨ i = .respond) ∧
    (t.hdr ≠ s.hdr → i = .hdrunpack ∨ i = .respond) ∧
    (t.flags ≠ s.flags → i = .flagsunpack ∨ i = .respond) ∧
    (t.qtype ≠ s.qtype ∨ t.qclass ≠ s.qclass → i = .qunpack ∨ i = .respond) ∧
    (t.addr ≠ s.addr → i = .lookup ∨ i = .respond)

/-- The cursor after a command that moved it and ended with STATUS 0: never beyond RXLEN, and forward for the commands that start at it (R115, R141, R151, R173; R192, which the spec marks as derived). -/
def Obligations.CursorMovesForwardWithinTheDatagram : Prop :=
  ∀ (i : Instr) (s t : State), exec i s = .next t → t.status = 0 →
    (i = .parsename ∨ i = .qunpack → s.cur < t.cur ∧ t.cur ≤ s.rxlen) ∧
    (i = .hdrunpack → t.cur = 12 ∧ 12 ≤ s.rxlen) ∧
    (i = .respond → 12 ≤ t.cur ∧ t.cur ≤ s.rxlen)

/-- STATUS is not sticky: what a command does does not depend on the STATUS the one before it left (R21, R211). -/
def Obligations.StatusIsNotSticky : Prop :=
  ∀ (i : Instr) (s : State) (c : BitVec 3), exec i { s with status := c } = exec i s

/-! ### The host and reset -/

/-- DELIVER loads RX, RXLEN and SRC; the octets of RX at or beyond the new RXLEN are known no more; nothing else changes (R41). -/
def Obligations.DeliverLoadsTheDatagram : Prop :=
  ∀ (s : State) (payload : Octets) (peer : Peer), payload.length ≤ s.cfg.maxLen →
    ∃ t, hostStep (.deliver payload peer) s = .next t ∧
      t.rxBytes = payload ∧ t.rxlen = payload.length ∧ t.src = peer ∧
      (∀ a, payload.length ≤ a → Memory.read? t.rx.cells a = none) ∧
      t = { s with rx := t.rx, rxlen := t.rxlen, src := t.src }

/-- HOSTWR of a register the host may write, with a value of its width: the register then reads as the value, of NAME the octets and NAMELEN together, and every other register and buffer reads as before (R42, R44). That NAMELEN alone is not written and that CUR takes any LENW-bit value are entries 12 and 11. -/
def Obligations.HostWriteWritesOneRegister : Prop :=
  ∀ (s : State) (r : Reg) (v : RegValue), hostMayWrite r = true → valueFits s.cfg r v = true →
    ∃ t, hostStep (.hostwr r v) s = .next t ∧
      (r ≠ .name → readReg r t = v) ∧
      (r = .name → ∃ n, v = .octets n ∧ t.nameBytes = n ∧ t.namelen = n.length) ∧
      ∀ r', r' ≠ r → ¬ (r = .name ∧ r' = .namelen) → readReg r' t = readReg r' s

/-- HOSTRD gives the host the register's value and changes nothing of the block; TX reads as its valid octets up to TXLEN (R44, R59). The record of what the host got is the model's own (entry 14). -/
def Obligations.HostReadChangesNothing : Prop :=
  ∀ (s : State) (r : Reg),
    hostStep (.hostrd r) s = .next { s with outputs := s.outputs ++ [.read r (readReg r s)] } ∧
    (s.txlen ≤ s.cfg.maxLen →
      ∃ w, readReg .tx s = .octets w ∧ w.length = s.cfg.maxLen ∧ w.take s.txlen = s.txBytes)

/-- TXCLR sets TXLEN to 0; TXVALID, the octets of TX and everything else stay (R43). -/
def Obligations.TxclrOnlyResetsTheLength : Prop :=
  ∀ s : State, ∃ t, hostStep .txclr s = .next t ∧ t.txlen = 0 ∧
    (∀ a, Memory.read? t.tx.cells a = Memory.read? s.tx.cells a) ∧
    t = { s with tx := t.tx, txlen := t.txlen }

/-- SEND gives the outside one datagram, TX[0 ..< TXLEN] to DST, and changes no register, when TXVALID = 1 (R46); when it is 0 there is no such move and the machine stops. That it stops, and the record of what was sent, are the model's choices (entries 10 and 14). -/
def Obligations.SendTransmitsTheReply : Prop :=
  ∀ s : State,
    (s.txvalid = true →
      hostStep .send s = .next { s with outputs := s.outputs ++ [.datagram s.txBytes s.dst] }) ∧
    (s.txvalid = false → hostStep .send s = .fault .sendWithoutReply)

/-- A host action for which the spec has no move stops the machine, and no other does except SEND without a reply: an oversize DELIVER, a HOSTWR of a register the host may not write or of a value that is not of its width. R41, R42 and U18 say that these have no move. That the machine stops on them is the model's choice (entry 10), and so are two readings of which HOSTWRs they are: NAMELEN alone stops (entry 12), and CUR above MAX_LEN but below 2^LENW does not, against the literal words of U18 (entry 11). -/
def Obligations.IllFormedHostActionsStop : Prop :=
  ∀ (s : State) (a : HostAction), a ≠ .send →
    ((∃ f, hostStep a s = .fault f) ↔ a.wellFormed s.cfg = false)

/-- After a reset event the six registers of R47 are 0 and no octet of a buffer is known; the configuration stays (R230, R231). -/
def Obligations.ResetClearsTheSixRegisters : Prop :=
  ∀ (s : State) (rest : List Input), s.inputs = .reset :: rest →
    ∃ t, step s = .next t ∧ t.status = 0 ∧ t.cur = 0 ∧ t.rxlen = 0 ∧ t.txlen = 0 ∧
      t.txvalid = false ∧ t.namelen = 0 ∧ t.rx.cells = [] ∧ t.tx.cells = [] ∧ t.name.cells = [] ∧
      t.cfg = s.cfg ∧ t.inputs = rest ∧ t.outputs = s.outputs

/-- The machine right after its first reset: the six registers of R47 are 0, no octet of a buffer is known, and nothing has happened yet. -/
def Obligations.FirstResetState : Prop :=
  State.reset.status = 0 ∧ State.reset.cur = 0 ∧ State.reset.rxlen = 0 ∧ State.reset.txlen = 0 ∧
    State.reset.txvalid = false ∧ State.reset.namelen = 0 ∧ State.reset.rx.cells = [] ∧
    State.reset.tx.cells = [] ∧ State.reset.name.cells = [] ∧ State.reset.inputs = [] ∧
    State.reset.outputs = []

/-! ### Invariants and the host's duties -/

/-- LENW is the least width that can hold MAX_LEN (R35). -/
def Obligations.CursorWidthIsLeast : Prop :=
  ∀ c : Config, c.maxLen < 2 ^ c.lenw ∧ ∀ w, c.maxLen < 2 ^ w → c.lenw ≤ w

/-- The state after reset meets the invariant, under every configuration that R6-R8 allow and in the one State.reset stands in. -/
def Obligations.ResetMeetsTheInvariant : Prop :=
  (∀ (c : Config) (k : Nat), c.wf → (State.resetWith c k).Inv) ∧ State.reset.Inv

/-- Every step keeps the invariant: STATUS never 7, CUR and VAL within their widths, the lengths within MAX_LEN, the buffers canonical, within their capacity and known below their lengths. -/
def Obligations.StepKeepsTheInvariant : Prop :=
  ∀ s t : State, s.Inv → step s = .next t → t.Inv

/-- No step, reset included, changes the configuration (R231). -/
def Obligations.ConfigurationNeverChanges : Prop :=
  ∀ s t : State, step s = .next t → t.cfg = s.cfg

/-- While a reply is owed a SEND and the host keeps its duties, the reply stays as it is, whatever the host does but reset; and the SEND transmits exactly it (R242). -/
def Obligations.OwedReplyIsSentUnchanged : Prop :=
  ∀ (d : Duty) (s t : State) (i : Input) (rest : List Input), s.inputs = i :: rest →
    d.replyOwed = true → dutyAllows d s i = true → step s = .next t → i ≠ .reset →
    t.txBytes = s.txBytes ∧ t.dst = s.dst ∧ t.txvalid = s.txvalid ∧
      (i = .host .send → t.outputs = s.outputs ++ [.datagram s.txBytes s.dst])

/-- A host that keeps its duties is never stopped: from a state that meets the invariant and in which an owed reply is a valid one, an allowed input is taken, and the same holds afterwards (R240-R242). The monitor (entry 17), that the other inputs stop (entry 10) and which HOSTWRs are allowed (entries 11 and 12) are the model's choices. -/
def Obligations.DutifulHostIsNeverStopped : Prop :=
  ∀ (d : Duty) (s : State) (i : Input) (rest : List Input), s.Inv →
    (d.replyOwed = true → s.txvalid = true) → s.inputs = i :: rest → dutyAllows d s i = true →
    ∃ t, step s = .next t ∧ t.Inv ∧ ((dutyNext d s t i).replyOwed = true → t.txvalid = true)
end

