-- ==== Sys2Proof/Laws/Memory.lean ====
section
/-! SUPPORT. Laws of the buffers' octet lists: read after write, and that every operation keeps the canonical form. -/

namespace Sys2Proof.Machine

@[simp] theorem read?_nil (a : Nat) : Memory.read? [] a = none := rfl

theorem read?_cons (k : Nat) (v : Byte) (m : Memory) (a : Nat) :
    Memory.read? ((k, v) :: m) a = if k = a then some v else Memory.read? m a := rfl

/-- Read after write, on any list. -/
theorem read?_write (m : Memory) (a : Nat) (b : Byte) (a' : Nat) :
    Memory.read? (Memory.write m a b) a' = if a = a' then some b else Memory.read? m a' := by
  induction m with
  | nil => simp [Memory.write, read?_cons]
  | cons c m ih =>
    obtain ⟨k, v⟩ := c
    simp only [Memory.write]
    split
    · simp [read?_cons]
    · split
      · subst_vars; simp only [read?_cons]; split <;> rfl
      · simp only [read?_cons, ih]; split <;> split <;> first | rfl | omega

@[simp] theorem read?_write_self (m : Memory) (a : Nat) (b : Byte) :
    Memory.read? (Memory.write m a b) a = some b := by simp [read?_write]

theorem read?_write_ne {a a' : Nat} (m : Memory) (b : Byte) (h : a ≠ a') :
    Memory.read? (Memory.write m a b) a' = Memory.read? m a' := by simp [read?_write, h]

/-- Read after a string was written: the string where it stands, the old octet elsewhere. -/
theorem read?_writeAll (m : Memory) (a : Nat) (s : Octets) (a' : Nat) :
    Memory.read? (Memory.writeAll m a s) a' =
      if a ≤ a' ∧ a' < a + s.length then s[a' - a]? else Memory.read? m a' := by
  induction s generalizing m a with
  | nil => simp only [Memory.writeAll, List.length_nil]; split <;> first | omega | rfl
  | cons b s ih =>
    simp only [Memory.writeAll, ih, read?_write, List.length_cons]
    by_cases h : a = a'
    · subst h; simp
    · by_cases h' : a + 1 ≤ a' ∧ a' < a + 1 + s.length
      · have h1 : a ≤ a' ∧ a' < a + (s.length + 1) := by omega
        have h2 : a' - a = (a' - (a + 1)) + 1 := by omega
        rw [if_pos h', if_pos h1, h2, List.getElem?_cons_succ]
      · have h1 : ¬(a ≤ a' ∧ a' < a + (s.length + 1)) := by omega
        rw [if_neg h', if_neg h, if_neg h1]

theorem read?_writeAll_inside (m : Memory) (a : Nat) (s : Octets) (i : Nat) (h : i < s.length) :
    Memory.read? (Memory.writeAll m a s) (a + i) = s[i]? := by
  have h1 : a ≤ a + i ∧ a + i < a + s.length := by omega
  simp [read?_writeAll, h1]

theorem read?_writeAll_outside (m : Memory) (a : Nat) (s : Octets) (a' : Nat)
    (h : a' < a ∨ a + s.length ≤ a') :
    Memory.read? (Memory.writeAll m a s) a' = Memory.read? m a' := by
  have h1 : ¬(a ≤ a' ∧ a' < a + s.length) := by omega
  simp [read?_writeAll, h1]

theorem read?_listFrom (a : Nat) (s : Octets) (a' : Nat) :
    Memory.read? (Memory.listFrom a s) a' = if a ≤ a' then s[a' - a]? else none := by
  induction s generalizing a with
  | nil => simp [Memory.listFrom]
  | cons b s ih =>
    simp only [Memory.listFrom, read?_cons, ih]
    by_cases h : a = a'
    · subst h; simp
    · by_cases h' : a + 1 ≤ a'
      · have h2 : a' - a = (a' - (a + 1)) + 1 := by omega
        have h1 : a ≤ a' := by omega
        simp [h, h', h1, h2]
      · have h1 : ¬ a ≤ a' := by omega
        simp [h, h', h1]

/-! ### The canonical form and the capacity -/

theorem mem_write {m : Memory} {a : Nat} {b : Byte} {c : Host.Cell} (h : c ∈ Memory.write m a b) :
    c = (a, b) ∨ c ∈ m := by
  induction m with
  | nil => simpa [Memory.write] using h
  | cons d m ih =>
    obtain ⟨k, v⟩ := d
    simp only [Memory.write] at h
    split at h
    · simpa using h
    · split at h
      · simp only [List.mem_cons] at h ⊢
        tauto
      · simp only [List.mem_cons] at h ⊢
        rcases h with h | h
        · tauto
        · have := ih h; tauto

theorem write_wf {m : Memory} (h : Memory.wf m) (a : Nat) (b : Byte) :
    Memory.wf (Memory.write m a b) := by
  induction m with
  | nil => simp [Memory.write, Memory.wf]
  | cons d m ih =>
    obtain ⟨k, v⟩ := d
    have hk := List.pairwise_cons.mp h
    simp only [Memory.write]
    split
    · rename_i hlt
      refine List.pairwise_cons.mpr ⟨?_, h⟩
      intro c hc
      rcases List.mem_cons.mp hc with rfl | hc
      · exact hlt
      · exact Nat.lt_trans hlt (hk.1 c hc)
    · split
      · subst_vars; exact List.pairwise_cons.mpr ⟨hk.1, hk.2⟩
      · refine List.pairwise_cons.mpr ⟨?_, ih hk.2⟩
        intro c hc
        rcases mem_write hc with rfl | hc
        · show k < a; omega
        · exact hk.1 c hc

theorem writeAll_wf {m : Memory} (h : Memory.wf m) (a : Nat) (s : Octets) :
    Memory.wf (Memory.writeAll m a s) := by
  induction s generalizing m a with
  | nil => exact h
  | cons b s ih => exact ih (write_wf h a b) (a + 1)

theorem mem_writeAll {m : Memory} {a : Nat} {s : Octets} {c : Host.Cell}
    (h : c ∈ Memory.writeAll m a s) : (a ≤ c.1 ∧ c.1 < a + s.length) ∨ c ∈ m := by
  induction s generalizing m a with
  | nil => exact .inr h
  | cons b s ih =>
    rcases ih h with h | h
    · left; simp only [List.length_cons]; omega
    · rcases mem_write h with rfl | h
      · left; simp
      · exact .inr h

theorem mem_listFrom {a : Nat} {s : Octets} {c : Host.Cell} (h : c ∈ Memory.listFrom a s) :
    a ≤ c.1 ∧ c.1 < a + s.length := by
  induction s generalizing a with
  | nil => simp [Memory.listFrom] at h
  | cons b s ih =>
    simp only [Memory.listFrom, List.mem_cons] at h
    rcases h with rfl | h
    · simp
    · have := ih h; simp only [List.length_cons]; omega

theorem listFrom_wf (a : Nat) (s : Octets) : Memory.wf (Memory.listFrom a s) := by
  induction s generalizing a with
  | nil => simp [Memory.listFrom, Memory.wf]
  | cons b s ih =>
    refine List.pairwise_cons.mpr ⟨?_, ih (a + 1)⟩
    intro c hc
    have := mem_listFrom hc
    show a < c.1; omega

/-! ### Buffers -/

theorem octet_of_read? {k : Nat} {b : Buffer} {a : Nat} {v : Byte}
    (h : Memory.read? b.cells a = some v) : Buffer.octet k b a = v := by
  simp [Buffer.octet, h]

@[simp] theorem bytes_length (k : Nat) (b : Buffer) (n : Nat) : (Buffer.bytes k b n).length = n := by
  simp [Buffer.bytes]

theorem bytes_getElem? (k : Nat) (b : Buffer) (n i : Nat) (h : i < n) :
    (Buffer.bytes k b n)[i]? = some (Buffer.octet k b i) := by
  simp [Buffer.bytes, h]

/-- A buffer whose octets below `s.length` are known to be `s` reads as `s`. -/
theorem bytes_eq_of_read? {k : Nat} {b : Buffer} {s : Octets}
    (h : ∀ i, i < s.length → Memory.read? b.cells i = s[i]?) : Buffer.bytes k b s.length = s := by
  apply List.ext_getElem?
  intro i
  by_cases hi : i < s.length
  · rw [bytes_getElem? _ _ _ _ hi]
    have h1 := h i hi
    rw [List.getElem?_eq_getElem hi] at h1 ⊢
    rw [octet_of_read? h1]
  · rw [List.getElem?_eq_none (by simpa using hi), List.getElem?_eq_none (by simpa using hi)]

@[simp] theorem load_bytes (k : Nat) (b : Buffer) (s : Octets) :
    Buffer.bytes k (b.load s) s.length = s :=
  bytes_eq_of_read? (fun i _ => by simp [Buffer.load, read?_listFrom])

@[simp] theorem load_cells (b : Buffer) (s : Octets) : (b.load s).cells = Memory.listFrom 0 s := rfl
@[simp] theorem store_cells (b : Buffer) (a : Nat) (s : Octets) :
    (b.store a s).cells = Memory.writeAll b.cells a s := rfl
@[simp] theorem touch_cells (b : Buffer) : b.touch.cells = b.cells := rfl
@[simp] theorem forget_cells (b : Buffer) : b.forget.cells = [] := rfl

/-- A string stored from offset 0 reads back. -/
theorem store_zero_bytes (k : Nat) (b : Buffer) (s : Octets) :
    Buffer.bytes k (b.store 0 s) s.length = s :=
  bytes_eq_of_read? (fun i hi => by
    have := read?_writeAll_inside b.cells 0 s i hi
    simpa using this)

end Sys2Proof.Machine
end

