-- ==== Sys2Proof/Laws/State.lean ====
section
/-! SUPPORT. For each update of State, one lemma per field, true by rfl, so that no later proof unfolds a record update. -/

namespace Sys2Proof.Machine.State

/-! ### setStatus -/

@[simp] theorem setStatus_cfg (s : State) (c : BitVec 3) : (s.setStatus c).cfg = s.cfg := rfl
@[simp] theorem setStatus_status (s : State) (c : BitVec 3) : (s.setStatus c).status = c := rfl
@[simp] theorem setStatus_cur (s : State) (c : BitVec 3) : (s.setStatus c).cur = s.cur := rfl
@[simp] theorem setStatus_rx (s : State) (c : BitVec 3) : (s.setStatus c).rx = s.rx := rfl
@[simp] theorem setStatus_rxlen (s : State) (c : BitVec 3) : (s.setStatus c).rxlen = s.rxlen := rfl
@[simp] theorem setStatus_src (s : State) (c : BitVec 3) : (s.setStatus c).src = s.src := rfl
@[simp] theorem setStatus_tx (s : State) (c : BitVec 3) : (s.setStatus c).tx = s.tx := rfl
@[simp] theorem setStatus_txlen (s : State) (c : BitVec 3) : (s.setStatus c).txlen = s.txlen := rfl
@[simp] theorem setStatus_txvalid (s : State) (c : BitVec 3) : (s.setStatus c).txvalid = s.txvalid := rfl
@[simp] theorem setStatus_dst (s : State) (c : BitVec 3) : (s.setStatus c).dst = s.dst := rfl
@[simp] theorem setStatus_name (s : State) (c : BitVec 3) : (s.setStatus c).name = s.name := rfl
@[simp] theorem setStatus_namelen (s : State) (c : BitVec 3) : (s.setStatus c).namelen = s.namelen := rfl
@[simp] theorem setStatus_val (s : State) (c : BitVec 3) : (s.setStatus c).val = s.val := rfl
@[simp] theorem setStatus_hdr (s : State) (c : BitVec 3) : (s.setStatus c).hdr = s.hdr := rfl
@[simp] theorem setStatus_flags (s : State) (c : BitVec 3) : (s.setStatus c).flags = s.flags := rfl
@[simp] theorem setStatus_qtype (s : State) (c : BitVec 3) : (s.setStatus c).qtype = s.qtype := rfl
@[simp] theorem setStatus_qclass (s : State) (c : BitVec 3) : (s.setStatus c).qclass = s.qclass := rfl
@[simp] theorem setStatus_addr (s : State) (c : BitVec 3) : (s.setStatus c).addr = s.addr := rfl
@[simp] theorem setStatus_inputs (s : State) (c : BitVec 3) : (s.setStatus c).inputs = s.inputs := rfl
@[simp] theorem setStatus_outputs (s : State) (c : BitVec 3) : (s.setStatus c).outputs = s.outputs := rfl
@[simp] theorem setStatus_resets (s : State) (c : BitVec 3) : (s.setStatus c).resets = s.resets := rfl

/-! ### setCur -/

@[simp] theorem setCur_cfg (s : State) (o : Nat) : (s.setCur o).cfg = s.cfg := rfl
@[simp] theorem setCur_status (s : State) (o : Nat) : (s.setCur o).status = s.status := rfl
@[simp] theorem setCur_cur (s : State) (o : Nat) : (s.setCur o).cur = o := rfl
@[simp] theorem setCur_rx (s : State) (o : Nat) : (s.setCur o).rx = s.rx := rfl
@[simp] theorem setCur_rxlen (s : State) (o : Nat) : (s.setCur o).rxlen = s.rxlen := rfl
@[simp] theorem setCur_src (s : State) (o : Nat) : (s.setCur o).src = s.src := rfl
@[simp] theorem setCur_tx (s : State) (o : Nat) : (s.setCur o).tx = s.tx := rfl
@[simp] theorem setCur_txlen (s : State) (o : Nat) : (s.setCur o).txlen = s.txlen := rfl
@[simp] theorem setCur_txvalid (s : State) (o : Nat) : (s.setCur o).txvalid = s.txvalid := rfl
@[simp] theorem setCur_dst (s : State) (o : Nat) : (s.setCur o).dst = s.dst := rfl
@[simp] theorem setCur_name (s : State) (o : Nat) : (s.setCur o).name = s.name := rfl
@[simp] theorem setCur_namelen (s : State) (o : Nat) : (s.setCur o).namelen = s.namelen := rfl
@[simp] theorem setCur_val (s : State) (o : Nat) : (s.setCur o).val = s.val := rfl
@[simp] theorem setCur_hdr (s : State) (o : Nat) : (s.setCur o).hdr = s.hdr := rfl
@[simp] theorem setCur_flags (s : State) (o : Nat) : (s.setCur o).flags = s.flags := rfl
@[simp] theorem setCur_qtype (s : State) (o : Nat) : (s.setCur o).qtype = s.qtype := rfl
@[simp] theorem setCur_qclass (s : State) (o : Nat) : (s.setCur o).qclass = s.qclass := rfl
@[simp] theorem setCur_addr (s : State) (o : Nat) : (s.setCur o).addr = s.addr := rfl
@[simp] theorem setCur_inputs (s : State) (o : Nat) : (s.setCur o).inputs = s.inputs := rfl
@[simp] theorem setCur_outputs (s : State) (o : Nat) : (s.setCur o).outputs = s.outputs := rfl
@[simp] theorem setCur_resets (s : State) (o : Nat) : (s.setCur o).resets = s.resets := rfl

/-! ### setName -/

@[simp] theorem setName_cfg (s : State) (n : Octets) : (s.setName n).cfg = s.cfg := rfl
@[simp] theorem setName_status (s : State) (n : Octets) : (s.setName n).status = s.status := rfl
@[simp] theorem setName_cur (s : State) (n : Octets) : (s.setName n).cur = s.cur := rfl
@[simp] theorem setName_rx (s : State) (n : Octets) : (s.setName n).rx = s.rx := rfl
@[simp] theorem setName_rxlen (s : State) (n : Octets) : (s.setName n).rxlen = s.rxlen := rfl
@[simp] theorem setName_src (s : State) (n : Octets) : (s.setName n).src = s.src := rfl
@[simp] theorem setName_tx (s : State) (n : Octets) : (s.setName n).tx = s.tx := rfl
@[simp] theorem setName_txlen (s : State) (n : Octets) : (s.setName n).txlen = s.txlen := rfl
@[simp] theorem setName_txvalid (s : State) (n : Octets) : (s.setName n).txvalid = s.txvalid := rfl
@[simp] theorem setName_dst (s : State) (n : Octets) : (s.setName n).dst = s.dst := rfl
@[simp] theorem setName_name (s : State) (n : Octets) : (s.setName n).name = s.name.load n := rfl
@[simp] theorem setName_namelen (s : State) (n : Octets) : (s.setName n).namelen = n.length := rfl
@[simp] theorem setName_val (s : State) (n : Octets) : (s.setName n).val = s.val := rfl
@[simp] theorem setName_hdr (s : State) (n : Octets) : (s.setName n).hdr = s.hdr := rfl
@[simp] theorem setName_flags (s : State) (n : Octets) : (s.setName n).flags = s.flags := rfl
@[simp] theorem setName_qtype (s : State) (n : Octets) : (s.setName n).qtype = s.qtype := rfl
@[simp] theorem setName_qclass (s : State) (n : Octets) : (s.setName n).qclass = s.qclass := rfl
@[simp] theorem setName_addr (s : State) (n : Octets) : (s.setName n).addr = s.addr := rfl
@[simp] theorem setName_inputs (s : State) (n : Octets) : (s.setName n).inputs = s.inputs := rfl
@[simp] theorem setName_outputs (s : State) (n : Octets) : (s.setName n).outputs = s.outputs := rfl
@[simp] theorem setName_resets (s : State) (n : Octets) : (s.setName n).resets = s.resets := rfl

/-! ### setHdr -/

@[simp] theorem setHdr_cfg (s : State) (h : Header) : (s.setHdr h).cfg = s.cfg := rfl
@[simp] theorem setHdr_status (s : State) (h : Header) : (s.setHdr h).status = s.status := rfl
@[simp] theorem setHdr_cur (s : State) (h : Header) : (s.setHdr h).cur = s.cur := rfl
@[simp] theorem setHdr_rx (s : State) (h : Header) : (s.setHdr h).rx = s.rx := rfl
@[simp] theorem setHdr_rxlen (s : State) (h : Header) : (s.setHdr h).rxlen = s.rxlen := rfl
@[simp] theorem setHdr_src (s : State) (h : Header) : (s.setHdr h).src = s.src := rfl
@[simp] theorem setHdr_tx (s : State) (h : Header) : (s.setHdr h).tx = s.tx := rfl
@[simp] theorem setHdr_txlen (s : State) (h : Header) : (s.setHdr h).txlen = s.txlen := rfl
@[simp] theorem setHdr_txvalid (s : State) (h : Header) : (s.setHdr h).txvalid = s.txvalid := rfl
@[simp] theorem setHdr_dst (s : State) (h : Header) : (s.setHdr h).dst = s.dst := rfl
@[simp] theorem setHdr_name (s : State) (h : Header) : (s.setHdr h).name = s.name := rfl
@[simp] theorem setHdr_namelen (s : State) (h : Header) : (s.setHdr h).namelen = s.namelen := rfl
@[simp] theorem setHdr_val (s : State) (h : Header) : (s.setHdr h).val = s.val := rfl
@[simp] theorem setHdr_hdr (s : State) (h : Header) : (s.setHdr h).hdr = h := rfl
@[simp] theorem setHdr_flags (s : State) (h : Header) : (s.setHdr h).flags = s.flags := rfl
@[simp] theorem setHdr_qtype (s : State) (h : Header) : (s.setHdr h).qtype = s.qtype := rfl
@[simp] theorem setHdr_qclass (s : State) (h : Header) : (s.setHdr h).qclass = s.qclass := rfl
@[simp] theorem setHdr_addr (s : State) (h : Header) : (s.setHdr h).addr = s.addr := rfl
@[simp] theorem setHdr_inputs (s : State) (h : Header) : (s.setHdr h).inputs = s.inputs := rfl
@[simp] theorem setHdr_outputs (s : State) (h : Header) : (s.setHdr h).outputs = s.outputs := rfl
@[simp] theorem setHdr_resets (s : State) (h : Header) : (s.setHdr h).resets = s.resets := rfl

/-! ### setFlags -/

@[simp] theorem setFlags_cfg (s : State) (f : FlagFields) : (s.setFlags f).cfg = s.cfg := rfl
@[simp] theorem setFlags_status (s : State) (f : FlagFields) : (s.setFlags f).status = s.status := rfl
@[simp] theorem setFlags_cur (s : State) (f : FlagFields) : (s.setFlags f).cur = s.cur := rfl
@[simp] theorem setFlags_rx (s : State) (f : FlagFields) : (s.setFlags f).rx = s.rx := rfl
@[simp] theorem setFlags_rxlen (s : State) (f : FlagFields) : (s.setFlags f).rxlen = s.rxlen := rfl
@[simp] theorem setFlags_src (s : State) (f : FlagFields) : (s.setFlags f).src = s.src := rfl
@[simp] theorem setFlags_tx (s : State) (f : FlagFields) : (s.setFlags f).tx = s.tx := rfl
@[simp] theorem setFlags_txlen (s : State) (f : FlagFields) : (s.setFlags f).txlen = s.txlen := rfl
@[simp] theorem setFlags_txvalid (s : State) (f : FlagFields) : (s.setFlags f).txvalid = s.txvalid := rfl
@[simp] theorem setFlags_dst (s : State) (f : FlagFields) : (s.setFlags f).dst = s.dst := rfl
@[simp] theorem setFlags_name (s : State) (f : FlagFields) : (s.setFlags f).name = s.name := rfl
@[simp] theorem setFlags_namelen (s : State) (f : FlagFields) : (s.setFlags f).namelen = s.namelen := rfl
@[simp] theorem setFlags_val (s : State) (f : FlagFields) : (s.setFlags f).val = s.val := rfl
@[simp] theorem setFlags_hdr (s : State) (f : FlagFields) : (s.setFlags f).hdr = s.hdr := rfl
@[simp] theorem setFlags_flags (s : State) (f : FlagFields) : (s.setFlags f).flags = f := rfl
@[simp] theorem setFlags_qtype (s : State) (f : FlagFields) : (s.setFlags f).qtype = s.qtype := rfl
@[simp] theorem setFlags_qclass (s : State) (f : FlagFields) : (s.setFlags f).qclass = s.qclass := rfl
@[simp] theorem setFlags_addr (s : State) (f : FlagFields) : (s.setFlags f).addr = s.addr := rfl
@[simp] theorem setFlags_inputs (s : State) (f : FlagFields) : (s.setFlags f).inputs = s.inputs := rfl
@[simp] theorem setFlags_outputs (s : State) (f : FlagFields) : (s.setFlags f).outputs = s.outputs := rfl
@[simp] theorem setFlags_resets (s : State) (f : FlagFields) : (s.setFlags f).resets = s.resets := rfl

/-! ### setQuery -/

@[simp] theorem setQuery_cfg (s : State) (t c : Half) : (s.setQuery t c).cfg = s.cfg := rfl
@[simp] theorem setQuery_status (s : State) (t c : Half) : (s.setQuery t c).status = s.status := rfl
@[simp] theorem setQuery_cur (s : State) (t c : Half) : (s.setQuery t c).cur = s.cur := rfl
@[simp] theorem setQuery_rx (s : State) (t c : Half) : (s.setQuery t c).rx = s.rx := rfl
@[simp] theorem setQuery_rxlen (s : State) (t c : Half) : (s.setQuery t c).rxlen = s.rxlen := rfl
@[simp] theorem setQuery_src (s : State) (t c : Half) : (s.setQuery t c).src = s.src := rfl
@[simp] theorem setQuery_tx (s : State) (t c : Half) : (s.setQuery t c).tx = s.tx := rfl
@[simp] theorem setQuery_txlen (s : State) (t c : Half) : (s.setQuery t c).txlen = s.txlen := rfl
@[simp] theorem setQuery_txvalid (s : State) (t c : Half) : (s.setQuery t c).txvalid = s.txvalid := rfl
@[simp] theorem setQuery_dst (s : State) (t c : Half) : (s.setQuery t c).dst = s.dst := rfl
@[simp] theorem setQuery_name (s : State) (t c : Half) : (s.setQuery t c).name = s.name := rfl
@[simp] theorem setQuery_namelen (s : State) (t c : Half) : (s.setQuery t c).namelen = s.namelen := rfl
@[simp] theorem setQuery_val (s : State) (t c : Half) : (s.setQuery t c).val = s.val := rfl
@[simp] theorem setQuery_hdr (s : State) (t c : Half) : (s.setQuery t c).hdr = s.hdr := rfl
@[simp] theorem setQuery_flags (s : State) (t c : Half) : (s.setQuery t c).flags = s.flags := rfl
@[simp] theorem setQuery_qtype (s : State) (t c : Half) : (s.setQuery t c).qtype = t := rfl
@[simp] theorem setQuery_qclass (s : State) (t c : Half) : (s.setQuery t c).qclass = c := rfl
@[simp] theorem setQuery_addr (s : State) (t c : Half) : (s.setQuery t c).addr = s.addr := rfl
@[simp] theorem setQuery_inputs (s : State) (t c : Half) : (s.setQuery t c).inputs = s.inputs := rfl
@[simp] theorem setQuery_outputs (s : State) (t c : Half) : (s.setQuery t c).outputs = s.outputs := rfl
@[simp] theorem setQuery_resets (s : State) (t c : Half) : (s.setQuery t c).resets = s.resets := rfl

/-! ### setAddr -/

@[simp] theorem setAddr_cfg (s : State) (a : Addr) : (s.setAddr a).cfg = s.cfg := rfl
@[simp] theorem setAddr_status (s : State) (a : Addr) : (s.setAddr a).status = s.status := rfl
@[simp] theorem setAddr_cur (s : State) (a : Addr) : (s.setAddr a).cur = s.cur := rfl
@[simp] theorem setAddr_rx (s : State) (a : Addr) : (s.setAddr a).rx = s.rx := rfl
@[simp] theorem setAddr_rxlen (s : State) (a : Addr) : (s.setAddr a).rxlen = s.rxlen := rfl
@[simp] theorem setAddr_src (s : State) (a : Addr) : (s.setAddr a).src = s.src := rfl
@[simp] theorem setAddr_tx (s : State) (a : Addr) : (s.setAddr a).tx = s.tx := rfl
@[simp] theorem setAddr_txlen (s : State) (a : Addr) : (s.setAddr a).txlen = s.txlen := rfl
@[simp] theorem setAddr_txvalid (s : State) (a : Addr) : (s.setAddr a).txvalid = s.txvalid := rfl
@[simp] theorem setAddr_dst (s : State) (a : Addr) : (s.setAddr a).dst = s.dst := rfl
@[simp] theorem setAddr_name (s : State) (a : Addr) : (s.setAddr a).name = s.name := rfl
@[simp] theorem setAddr_namelen (s : State) (a : Addr) : (s.setAddr a).namelen = s.namelen := rfl
@[simp] theorem setAddr_val (s : State) (a : Addr) : (s.setAddr a).val = s.val := rfl
@[simp] theorem setAddr_hdr (s : State) (a : Addr) : (s.setAddr a).hdr = s.hdr := rfl
@[simp] theorem setAddr_flags (s : State) (a : Addr) : (s.setAddr a).flags = s.flags := rfl
@[simp] theorem setAddr_qtype (s : State) (a : Addr) : (s.setAddr a).qtype = s.qtype := rfl
@[simp] theorem setAddr_qclass (s : State) (a : Addr) : (s.setAddr a).qclass = s.qclass := rfl
@[simp] theorem setAddr_addr (s : State) (a : Addr) : (s.setAddr a).addr = a := rfl
@[simp] theorem setAddr_inputs (s : State) (a : Addr) : (s.setAddr a).inputs = s.inputs := rfl
@[simp] theorem setAddr_outputs (s : State) (a : Addr) : (s.setAddr a).outputs = s.outputs := rfl
@[simp] theorem setAddr_resets (s : State) (a : Addr) : (s.setAddr a).resets = s.resets := rfl

/-! ### storeTx -/

@[simp] theorem storeTx_cfg (s : State) (a : Nat) (b : Octets) : (s.storeTx a b).cfg = s.cfg := rfl
@[simp] theorem storeTx_status (s : State) (a : Nat) (b : Octets) : (s.storeTx a b).status = s.status := rfl
@[simp] theorem storeTx_cur (s : State) (a : Nat) (b : Octets) : (s.storeTx a b).cur = s.cur := rfl
@[simp] theorem storeTx_rx (s : State) (a : Nat) (b : Octets) : (s.storeTx a b).rx = s.rx := rfl
@[simp] theorem storeTx_rxlen (s : State) (a : Nat) (b : Octets) : (s.storeTx a b).rxlen = s.rxlen := rfl
@[simp] theorem storeTx_src (s : State) (a : Nat) (b : Octets) : (s.storeTx a b).src = s.src := rfl
@[simp] theorem storeTx_tx (s : State) (a : Nat) (b : Octets) : (s.storeTx a b).tx = s.tx.store a b := rfl
@[simp] theorem storeTx_txlen (s : State) (a : Nat) (b : Octets) : (s.storeTx a b).txlen = a + b.length := rfl
@[simp] theorem storeTx_txvalid (s : State) (a : Nat) (b : Octets) : (s.storeTx a b).txvalid = s.txvalid := rfl
@[simp] theorem storeTx_dst (s : State) (a : Nat) (b : Octets) : (s.storeTx a b).dst = s.dst := rfl
@[simp] theorem storeTx_name (s : State) (a : Nat) (b : Octets) : (s.storeTx a b).name = s.name := rfl
@[simp] theorem storeTx_namelen (s : State) (a : Nat) (b : Octets) : (s.storeTx a b).namelen = s.namelen := rfl
@[simp] theorem storeTx_val (s : State) (a : Nat) (b : Octets) : (s.storeTx a b).val = s.val := rfl
@[simp] theorem storeTx_hdr (s : State) (a : Nat) (b : Octets) : (s.storeTx a b).hdr = s.hdr := rfl
@[simp] theorem storeTx_flags (s : State) (a : Nat) (b : Octets) : (s.storeTx a b).flags = s.flags := rfl
@[simp] theorem storeTx_qtype (s : State) (a : Nat) (b : Octets) : (s.storeTx a b).qtype = s.qtype := rfl
@[simp] theorem storeTx_qclass (s : State) (a : Nat) (b : Octets) : (s.storeTx a b).qclass = s.qclass := rfl
@[simp] theorem storeTx_addr (s : State) (a : Nat) (b : Octets) : (s.storeTx a b).addr = s.addr := rfl
@[simp] theorem storeTx_inputs (s : State) (a : Nat) (b : Octets) : (s.storeTx a b).inputs = s.inputs := rfl
@[simp] theorem storeTx_outputs (s : State) (a : Nat) (b : Octets) : (s.storeTx a b).outputs = s.outputs := rfl
@[simp] theorem storeTx_resets (s : State) (a : Nat) (b : Octets) : (s.storeTx a b).resets = s.resets := rfl

/-! ### clearTx -/

@[simp] theorem clearTx_cfg (s : State) : s.clearTx.cfg = s.cfg := rfl
@[simp] theorem clearTx_status (s : State) : s.clearTx.status = s.status := rfl
@[simp] theorem clearTx_cur (s : State) : s.clearTx.cur = s.cur := rfl
@[simp] theorem clearTx_rx (s : State) : s.clearTx.rx = s.rx := rfl
@[simp] theorem clearTx_rxlen (s : State) : s.clearTx.rxlen = s.rxlen := rfl
@[simp] theorem clearTx_src (s : State) : s.clearTx.src = s.src := rfl
@[simp] theorem clearTx_tx (s : State) : s.clearTx.tx = s.tx.touch := rfl
@[simp] theorem clearTx_txlen (s : State) : s.clearTx.txlen = 0 := rfl
@[simp] theorem clearTx_txvalid (s : State) : s.clearTx.txvalid = s.txvalid := rfl
@[simp] theorem clearTx_dst (s : State) : s.clearTx.dst = s.dst := rfl
@[simp] theorem clearTx_name (s : State) : s.clearTx.name = s.name := rfl
@[simp] theorem clearTx_namelen (s : State) : s.clearTx.namelen = s.namelen := rfl
@[simp] theorem clearTx_val (s : State) : s.clearTx.val = s.val := rfl
@[simp] theorem clearTx_hdr (s : State) : s.clearTx.hdr = s.hdr := rfl
@[simp] theorem clearTx_flags (s : State) : s.clearTx.flags = s.flags := rfl
@[simp] theorem clearTx_qtype (s : State) : s.clearTx.qtype = s.qtype := rfl
@[simp] theorem clearTx_qclass (s : State) : s.clearTx.qclass = s.qclass := rfl
@[simp] theorem clearTx_addr (s : State) : s.clearTx.addr = s.addr := rfl
@[simp] theorem clearTx_inputs (s : State) : s.clearTx.inputs = s.inputs := rfl
@[simp] theorem clearTx_outputs (s : State) : s.clearTx.outputs = s.outputs := rfl
@[simp] theorem clearTx_resets (s : State) : s.clearTx.resets = s.resets := rfl

/-! ### setTxvalid -/

@[simp] theorem setTxvalid_cfg (s : State) (v : Bool) : (s.setTxvalid v).cfg = s.cfg := rfl
@[simp] theorem setTxvalid_status (s : State) (v : Bool) : (s.setTxvalid v).status = s.status := rfl
@[simp] theorem setTxvalid_cur (s : State) (v : Bool) : (s.setTxvalid v).cur = s.cur := rfl
@[simp] theorem setTxvalid_rx (s : State) (v : Bool) : (s.setTxvalid v).rx = s.rx := rfl
@[simp] theorem setTxvalid_rxlen (s : State) (v : Bool) : (s.setTxvalid v).rxlen = s.rxlen := rfl
@[simp] theorem setTxvalid_src (s : State) (v : Bool) : (s.setTxvalid v).src = s.src := rfl
@[simp] theorem setTxvalid_tx (s : State) (v : Bool) : (s.setTxvalid v).tx = s.tx := rfl
@[simp] theorem setTxvalid_txlen (s : State) (v : Bool) : (s.setTxvalid v).txlen = s.txlen := rfl
@[simp] theorem setTxvalid_txvalid (s : State) (v : Bool) : (s.setTxvalid v).txvalid = v := rfl
@[simp] theorem setTxvalid_dst (s : State) (v : Bool) : (s.setTxvalid v).dst = s.dst := rfl
@[simp] theorem setTxvalid_name (s : State) (v : Bool) : (s.setTxvalid v).name = s.name := rfl
@[simp] theorem setTxvalid_namelen (s : State) (v : Bool) : (s.setTxvalid v).namelen = s.namelen := rfl
@[simp] theorem setTxvalid_val (s : State) (v : Bool) : (s.setTxvalid v).val = s.val := rfl
@[simp] theorem setTxvalid_hdr (s : State) (v : Bool) : (s.setTxvalid v).hdr = s.hdr := rfl
@[simp] theorem setTxvalid_flags (s : State) (v : Bool) : (s.setTxvalid v).flags = s.flags := rfl
@[simp] theorem setTxvalid_qtype (s : State) (v : Bool) : (s.setTxvalid v).qtype = s.qtype := rfl
@[simp] theorem setTxvalid_qclass (s : State) (v : Bool) : (s.setTxvalid v).qclass = s.qclass := rfl
@[simp] theorem setTxvalid_addr (s : State) (v : Bool) : (s.setTxvalid v).addr = s.addr := rfl
@[simp] theorem setTxvalid_inputs (s : State) (v : Bool) : (s.setTxvalid v).inputs = s.inputs := rfl
@[simp] theorem setTxvalid_outputs (s : State) (v : Bool) : (s.setTxvalid v).outputs = s.outputs := rfl
@[simp] theorem setTxvalid_resets (s : State) (v : Bool) : (s.setTxvalid v).resets = s.resets := rfl

/-! ### setDst -/

@[simp] theorem setDst_cfg (s : State) (p : Peer) : (s.setDst p).cfg = s.cfg := rfl
@[simp] theorem setDst_status (s : State) (p : Peer) : (s.setDst p).status = s.status := rfl
@[simp] theorem setDst_cur (s : State) (p : Peer) : (s.setDst p).cur = s.cur := rfl
@[simp] theorem setDst_rx (s : State) (p : Peer) : (s.setDst p).rx = s.rx := rfl
@[simp] theorem setDst_rxlen (s : State) (p : Peer) : (s.setDst p).rxlen = s.rxlen := rfl
@[simp] theorem setDst_src (s : State) (p : Peer) : (s.setDst p).src = s.src := rfl
@[simp] theorem setDst_tx (s : State) (p : Peer) : (s.setDst p).tx = s.tx := rfl
@[simp] theorem setDst_txlen (s : State) (p : Peer) : (s.setDst p).txlen = s.txlen := rfl
@[simp] theorem setDst_txvalid (s : State) (p : Peer) : (s.setDst p).txvalid = s.txvalid := rfl
@[simp] theorem setDst_dst (s : State) (p : Peer) : (s.setDst p).dst = p := rfl
@[simp] theorem setDst_name (s : State) (p : Peer) : (s.setDst p).name = s.name := rfl
@[simp] theorem setDst_namelen (s : State) (p : Peer) : (s.setDst p).namelen = s.namelen := rfl
@[simp] theorem setDst_val (s : State) (p : Peer) : (s.setDst p).val = s.val := rfl
@[simp] theorem setDst_hdr (s : State) (p : Peer) : (s.setDst p).hdr = s.hdr := rfl
@[simp] theorem setDst_flags (s : State) (p : Peer) : (s.setDst p).flags = s.flags := rfl
@[simp] theorem setDst_qtype (s : State) (p : Peer) : (s.setDst p).qtype = s.qtype := rfl
@[simp] theorem setDst_qclass (s : State) (p : Peer) : (s.setDst p).qclass = s.qclass := rfl
@[simp] theorem setDst_addr (s : State) (p : Peer) : (s.setDst p).addr = s.addr := rfl
@[simp] theorem setDst_inputs (s : State) (p : Peer) : (s.setDst p).inputs = s.inputs := rfl
@[simp] theorem setDst_outputs (s : State) (p : Peer) : (s.setDst p).outputs = s.outputs := rfl
@[simp] theorem setDst_resets (s : State) (p : Peer) : (s.setDst p).resets = s.resets := rfl

/-! ### forgetTx -/

@[simp] theorem forgetTx_cfg (s : State) : s.forgetTx.cfg = s.cfg := rfl
@[simp] theorem forgetTx_status (s : State) : s.forgetTx.status = s.status := rfl
@[simp] theorem forgetTx_cur (s : State) : s.forgetTx.cur = s.cur := rfl
@[simp] theorem forgetTx_rx (s : State) : s.forgetTx.rx = s.rx := rfl
@[simp] theorem forgetTx_rxlen (s : State) : s.forgetTx.rxlen = s.rxlen := rfl
@[simp] theorem forgetTx_src (s : State) : s.forgetTx.src = s.src := rfl
@[simp] theorem forgetTx_tx (s : State) : s.forgetTx.tx = s.tx.forget := rfl
@[simp] theorem forgetTx_txlen (s : State) : s.forgetTx.txlen = s.txlen := rfl
@[simp] theorem forgetTx_txvalid (s : State) : s.forgetTx.txvalid = s.txvalid := rfl
@[simp] theorem forgetTx_dst (s : State) : s.forgetTx.dst = s.dst := rfl
@[simp] theorem forgetTx_name (s : State) : s.forgetTx.name = s.name := rfl
@[simp] theorem forgetTx_namelen (s : State) : s.forgetTx.namelen = s.namelen := rfl
@[simp] theorem forgetTx_val (s : State) : s.forgetTx.val = s.val := rfl
@[simp] theorem forgetTx_hdr (s : State) : s.forgetTx.hdr = s.hdr := rfl
@[simp] theorem forgetTx_flags (s : State) : s.forgetTx.flags = s.flags := rfl
@[simp] theorem forgetTx_qtype (s : State) : s.forgetTx.qtype = s.qtype := rfl
@[simp] theorem forgetTx_qclass (s : State) : s.forgetTx.qclass = s.qclass := rfl
@[simp] theorem forgetTx_addr (s : State) : s.forgetTx.addr = s.addr := rfl
@[simp] theorem forgetTx_inputs (s : State) : s.forgetTx.inputs = s.inputs := rfl
@[simp] theorem forgetTx_outputs (s : State) : s.forgetTx.outputs = s.outputs := rfl
@[simp] theorem forgetTx_resets (s : State) : s.forgetTx.resets = s.resets := rfl

/-! ### setQuestion -/

@[simp] theorem setQuestion_cfg (s : State) (q : Question) : (s.setQuestion q).cfg = s.cfg := rfl
@[simp] theorem setQuestion_status (s : State) (q : Question) : (s.setQuestion q).status = s.status := rfl
@[simp] theorem setQuestion_cur (s : State) (q : Question) : (s.setQuestion q).cur = q.next := rfl
@[simp] theorem setQuestion_rx (s : State) (q : Question) : (s.setQuestion q).rx = s.rx := rfl
@[simp] theorem setQuestion_rxlen (s : State) (q : Question) : (s.setQuestion q).rxlen = s.rxlen := rfl
@[simp] theorem setQuestion_src (s : State) (q : Question) : (s.setQuestion q).src = s.src := rfl
@[simp] theorem setQuestion_tx (s : State) (q : Question) : (s.setQuestion q).tx = s.tx := rfl
@[simp] theorem setQuestion_txlen (s : State) (q : Question) : (s.setQuestion q).txlen = s.txlen := rfl
@[simp] theorem setQuestion_txvalid (s : State) (q : Question) : (s.setQuestion q).txvalid = s.txvalid := rfl
@[simp] theorem setQuestion_dst (s : State) (q : Question) : (s.setQuestion q).dst = s.dst := rfl
@[simp] theorem setQuestion_name (s : State) (q : Question) : (s.setQuestion q).name = s.name.load q.name := rfl
@[simp] theorem setQuestion_namelen (s : State) (q : Question) : (s.setQuestion q).namelen = q.name.length := rfl
@[simp] theorem setQuestion_val (s : State) (q : Question) : (s.setQuestion q).val = s.val := rfl
@[simp] theorem setQuestion_hdr (s : State) (q : Question) : (s.setQuestion q).hdr = s.hdr := rfl
@[simp] theorem setQuestion_flags (s : State) (q : Question) : (s.setQuestion q).flags = s.flags := rfl
@[simp] theorem setQuestion_qtype (s : State) (q : Question) : (s.setQuestion q).qtype = q.qtype := rfl
@[simp] theorem setQuestion_qclass (s : State) (q : Question) : (s.setQuestion q).qclass = q.qclass := rfl
@[simp] theorem setQuestion_addr (s : State) (q : Question) : (s.setQuestion q).addr = s.addr := rfl
@[simp] theorem setQuestion_inputs (s : State) (q : Question) : (s.setQuestion q).inputs = s.inputs := rfl
@[simp] theorem setQuestion_outputs (s : State) (q : Question) : (s.setQuestion q).outputs = s.outputs := rfl
@[simp] theorem setQuestion_resets (s : State) (q : Question) : (s.setQuestion q).resets = s.resets := rfl

/-! ### emit -/

@[simp] theorem emit_cfg (s : State) (o : Output) : (s.emit o).cfg = s.cfg := rfl
@[simp] theorem emit_status (s : State) (o : Output) : (s.emit o).status = s.status := rfl
@[simp] theorem emit_cur (s : State) (o : Output) : (s.emit o).cur = s.cur := rfl
@[simp] theorem emit_rx (s : State) (o : Output) : (s.emit o).rx = s.rx := rfl
@[simp] theorem emit_rxlen (s : State) (o : Output) : (s.emit o).rxlen = s.rxlen := rfl
@[simp] theorem emit_src (s : State) (o : Output) : (s.emit o).src = s.src := rfl
@[simp] theorem emit_tx (s : State) (o : Output) : (s.emit o).tx = s.tx := rfl
@[simp] theorem emit_txlen (s : State) (o : Output) : (s.emit o).txlen = s.txlen := rfl
@[simp] theorem emit_txvalid (s : State) (o : Output) : (s.emit o).txvalid = s.txvalid := rfl
@[simp] theorem emit_dst (s : State) (o : Output) : (s.emit o).dst = s.dst := rfl
@[simp] theorem emit_name (s : State) (o : Output) : (s.emit o).name = s.name := rfl
@[simp] theorem emit_namelen (s : State) (o : Output) : (s.emit o).namelen = s.namelen := rfl
@[simp] theorem emit_val (s : State) (o : Output) : (s.emit o).val = s.val := rfl
@[simp] theorem emit_hdr (s : State) (o : Output) : (s.emit o).hdr = s.hdr := rfl
@[simp] theorem emit_flags (s : State) (o : Output) : (s.emit o).flags = s.flags := rfl
@[simp] theorem emit_qtype (s : State) (o : Output) : (s.emit o).qtype = s.qtype := rfl
@[simp] theorem emit_qclass (s : State) (o : Output) : (s.emit o).qclass = s.qclass := rfl
@[simp] theorem emit_addr (s : State) (o : Output) : (s.emit o).addr = s.addr := rfl
@[simp] theorem emit_inputs (s : State) (o : Output) : (s.emit o).inputs = s.inputs := rfl
@[simp] theorem emit_outputs (s : State) (o : Output) : (s.emit o).outputs = s.outputs ++ [o] := rfl
@[simp] theorem emit_resets (s : State) (o : Output) : (s.emit o).resets = s.resets := rfl

end Sys2Proof.Machine.State
end

