-- ==== Sys2Proof/Laws/Ops.lean ====
section
/-! SUPPORT. What the shared operations can do, said once: the end of a command, the append, the slice. -/

namespace Sys2Proof.Machine

/-! ### The end of a command -/

theorem code_ne_zero (f : CommandFault) : f.code ≠ 0 := by cases f <;> decide
theorem code_ne_seven (f : CommandFault) : f.code ≠ 7 := by cases f <;> decide

theorem takeFault_eq (f : CommandFault) (s : State) : takeFault f s = .next (s.setStatus f.code) := rfl

@[simp] theorem endLeaf_ok (s t : State) : endLeaf s (.ok t) = .next (t.setStatus 0) := rfl
@[simp] theorem endLeaf_error (s : State) (f : CommandFault) :
    endLeaf s (.error f) = .next (s.setStatus f.code) := rfl

/-- A leaf command answers a next state: its writes with STATUS 0, or the state before the ISSUE with a fault's code (R206). -/
theorem endLeaf_cases {s t : State} {r : Except CommandFault State} (h : endLeaf s r = .next t) :
    (∃ u, r = .ok u ∧ t = u.setStatus 0) ∨ (∃ f, r = .error f ∧ t = s.setStatus f.code) := by
  cases r with
  | ok u => left; exact ⟨u, rfl, by simpa using h.symm⟩
  | error f => right; exact ⟨f, rfl, by simpa using h.symm⟩

/-! ### The append -/

theorem append_fits {s : State} {b : Octets} (h : s.txlen + b.length ≤ s.cfg.maxLen) :
    s.append b = .ok (s.storeTx s.txlen b) := by
  simp [State.append, Nat.not_lt.mpr h]

theorem append_overflows {s : State} {b : Octets} (h : s.cfg.maxLen < s.txlen + b.length) :
    s.append b = .error .txOverflow := by
  simp [State.append, h]

/-- An append stores all of its output or raises TxOverflow (R57). -/
theorem append_cases (s : State) (b : Octets) :
    (s.txlen + b.length ≤ s.cfg.maxLen ∧ s.append b = .ok (s.storeTx s.txlen b)) ∨
    (s.cfg.maxLen < s.txlen + b.length ∧ s.append b = .error .txOverflow) := by
  rcases Nat.lt_or_ge s.cfg.maxLen (s.txlen + b.length) with h | h
  · exact .inr ⟨h, append_overflows h⟩
  · exact .inl ⟨h, append_fits h⟩

/-- What a store at TXLEN leaves, in the words of claims. -/
theorem storeTx_appended (s : State) (b : Octets) :
    appended s ((s.storeTx s.txlen b).setStatus 0) b := by
  refine ⟨rfl, rfl, ?_, ?_, rfl⟩
  · intro i hi; exact read?_writeAll_inside _ _ _ _ hi
  · intro a ha; exact read?_writeAll_outside _ _ _ _ ha

/-- A leaf command that appends `b`, when it fits. -/
theorem endLeaf_append {s : State} {b : Octets} (h : s.txlen + b.length ≤ s.cfg.maxLen) :
    ∃ t, endLeaf s (s.append b) = .next t ∧ appended s t b :=
  ⟨_, by rw [append_fits h]; rfl, storeTx_appended s b⟩

/-! ### Slices -/

@[simp] theorem slice_zero (s : Octets) (a : Nat) : slice s a 0 = [] := by simp [slice]

theorem slice_length (s : Octets) (a n : Nat) : (slice s a n).length = min n (s.length - a) := by
  simp [slice]

theorem slice_append (s : Octets) (a m n : Nat) :
    slice s a (m + n) = slice s a m ++ slice s (a + m) n := by
  simp only [slice, List.take_add, List.drop_drop]

/-- A concatenation stands at `a` exactly when its parts stand one after the other. -/
theorem slice_eq_append (s : Octets) (a : Nat) (x y : Octets) :
    slice s a (x ++ y).length = x ++ y ↔
      slice s a x.length = x ∧ slice s (a + x.length) y.length = y := by
  rw [List.length_append, slice_append]
  constructor
  · intro h
    have hl := congrArg List.length h
    simp only [List.length_append, slice_length] at hl
    exact List.append_inj h (by rw [slice_length]; omega)
  · rintro ⟨h1, h2⟩; rw [h1, h2]

theorem slice_getElem? (s : Octets) (a n i : Nat) (h : i < n) : (slice s a n)[i]? = s[a + i]? := by
  simp [slice, h]

/-- The octet at `a + i` of a string in which `x` stands at `a`. -/
theorem octetAt_of_slice {s x : Octets} {a : Nat} (h : slice s a x.length = x) {i : Nat}
    (hi : i < x.length) : octetAt s (a + i) = octetAt x i := by
  have h1 := slice_getElem? s a x.length i hi
  rw [h] at h1
  simp [octetAt, List.getD_eq_getElem?_getD, h1]

theorem slice_of_octet {s : Octets} {a : Nat} (h : a < s.length) : slice s a 1 = [octetAt s a] := by
  apply List.ext_getElem?
  intro i
  rcases Nat.lt_or_ge i 1 with hi | hi
  · have : i = 0 := by omega
    subst this
    rw [slice_getElem? _ _ _ _ hi]
    simp [octetAt, List.getD_eq_getElem?_getD, h]
  · rw [List.getElem?_eq_none, List.getElem?_eq_none]
    · simpa using hi
    · simp only [slice_length]; omega

/-- Two strings that agree below `n` have the same slices below `n`. -/
theorem slice_congr {s t : Octets} {a m : Nat} (h : ∀ i, i < a + m → s[i]? = t[i]?) :
    slice s a m = slice t a m := by
  apply List.ext_getElem?
  intro i
  rcases Nat.lt_or_ge i m with hi | hi
  · rw [slice_getElem? _ _ _ _ hi, slice_getElem? _ _ _ _ hi, h _ (by omega)]
  · rw [List.getElem?_eq_none, List.getElem?_eq_none] <;> simp only [slice_length] <;> omega

/-! ### RX as a byte string -/

@[simp] theorem rxBytes_length (s : State) : s.rxBytes.length = s.rxlen := bytes_length _ _ _
@[simp] theorem txBytes_length (s : State) : s.txBytes.length = s.txlen := bytes_length _ _ _
@[simp] theorem nameBytes_length (s : State) : s.nameBytes.length = s.namelen := bytes_length _ _ _

theorem octetAt_rxBytes (s : State) (a : Nat) (h : a < s.rxlen) : octetAt s.rxBytes a = s.rxOctet a := by
  simp [octetAt, List.getD_eq_getElem?_getD, State.rxBytes, State.rxOctet, bytes_getElem? _ _ _ _ h]

theorem octetAt_rxHead (s : State) (a : Nat) (h : a < 12) (hl : 12 ≤ s.rxlen) :
    octetAt s.rxHead a = s.rxOctet a := by
  have h1 : s.rxHead[a]? = s.rxBytes[0 + a]? := slice_getElem? _ _ _ _ h
  rw [← octetAt_rxBytes s a (by omega)]
  simp [octetAt, List.getD_eq_getElem?_getD, h1]

@[simp] theorem setName_nameBytes (s : State) (n : Octets) : (s.setName n).nameBytes = n :=
  load_bytes _ _ _

@[simp] theorem setQuestion_nameBytes (s : State) (q : Question) : (s.setQuestion q).nameBytes = q.name :=
  load_bytes _ _ _

/-- The question echo octet by octet (R142). -/
theorem questionEcho_eq (s : State) (h : s.cur ≤ s.rxlen) :
    s.questionEcho = (List.range (s.cur - 12)).map (fun i => s.rxOctet (12 + i)) := by
  apply List.ext_getElem?
  intro i
  simp only [State.questionEcho, hdrLen]
  rcases Nat.lt_or_ge i (s.cur - 12) with hi | hi
  · rw [slice_getElem? _ _ _ _ hi]
    simp only [State.rxBytes]
    rw [bytes_getElem? _ _ _ _ (by omega)]
    simp [hi, State.rxOctet]
  · rw [List.getElem?_eq_none, List.getElem?_eq_none]
    · simpa using hi
    · simp only [slice_length]; omega

end Sys2Proof.Machine
end

