-- ==== Sys2Proof/Laws/Buffers.lean ====
section
/-! SUPPORT. Every operation on a buffer keeps it in order: canonical, within its capacity, known below its length. -/

namespace Sys2Proof.Machine

theorem isSome_getElem? {s : Octets} {i : Nat} (h : i < s.length) : (s[i]?).isSome = true := by
  simp [h]

theorem load_ok (b : Buffer) {s : Octets} {cap : Nat} (h : s.length ≤ cap) :
    Buffer.ok (b.load s) s.length cap := by
  refine ⟨listFrom_wf _ _, fun c hc => ?_, h, fun a ha => ?_⟩
  · have := mem_listFrom hc; omega
  · rw [load_cells, read?_listFrom, if_pos (Nat.zero_le _)]
    exact isSome_getElem? (by omega)

/-- A store that begins at or below the known length leaves all octets up to its end known. -/
theorem store_ok {b : Buffer} {len cap a : Nat} {s : Octets} (hb : Buffer.ok b len cap) (ha : a ≤ len)
    (h : a + s.length ≤ cap) : Buffer.ok (b.store a s) (a + s.length) cap := by
  obtain ⟨h1, h2, h3, h4⟩ := hb
  refine ⟨writeAll_wf h1 _ _, fun c hc => ?_, h, fun i hi => ?_⟩
  · rcases mem_writeAll hc with hc | hc
    · omega
    · exact h2 c hc
  · rw [store_cells, read?_writeAll]
    split
    · exact isSome_getElem? (by omega)
    · exact h4 i (by omega)

theorem touch_ok {b : Buffer} {len cap : Nat} (hb : Buffer.ok b len cap) : Buffer.ok b.touch 0 cap :=
  ⟨hb.1, hb.2.1, Nat.zero_le _, fun _ h => absurd h (Nat.not_lt_zero _)⟩

theorem forget_ok (b : Buffer) (cap : Nat) : Buffer.ok b.forget 0 cap :=
  ⟨by simp [Memory.wf], by simp, Nat.zero_le _, fun _ h => absurd h (Nat.not_lt_zero _)⟩

theorem empty_ok (e cap : Nat) : Buffer.ok { cells := [], epoch := e } 0 cap :=
  ⟨by simp [Memory.wf], by simp, Nat.zero_le _, fun _ h => absurd h (Nat.not_lt_zero _)⟩

/-- An offset up to MAX_LEN fits in LENW bits (R35). -/
theorem lt_two_pow_lenw {c : Config} {n : Nat} (h : n ≤ c.maxLen) : n < 2 ^ c.lenw := by
  unfold Config.lenw
  split
  · omega
  · rename_i h0
    exact Nat.lt_of_le_of_lt h (Nat.lt_log2_self)

end Sys2Proof.Machine
end

