-- ==== Sys2Proof/Laws/Codec.lean ====
section
/-! SUPPORT. The codec's functions on values: lengths, the 16-bit read, the flag word. -/

namespace Sys2Proof.Machine

@[simp] theorem pack16_length (v : Nat) : (pack16 v).length = 2 := rfl
@[simp] theorem pack32_length (v : Nat) : (pack32 v).length = 4 := rfl
@[simp] theorem flagsPack_length (f : FlagFields) : (flagsPack f).length = 2 := rfl
@[simp] theorem addrOctets_length (a : Addr) : (addrOctets a).length = 4 := rfl

theorem hdrPack_length (id : Half) (opc : BitVec 4) (qd an : Half) (q : Octets) :
    (hdrPack id opc qd an q).length = 12 + q.length := by
  simp [hdrPack]; omega

/-- The 16-bit value whose high octet is `x` and low octet `y`. -/
theorem toNat_high_or_low (x y : Byte) :
    ((x.setWidth 16 <<< 8) ||| y.setWidth 16).toNat = 256 * x.toNat + y.toNat := by
  have hx := x.isLt
  have hy := y.isLt
  have h : (x.setWidth 16 <<< 8).toNat = x.toNat <<< 8 := by
    simp only [BitVec.toNat_shiftLeft, BitVec.toNat_setWidth]
    rw [Nat.mod_eq_of_lt (by omega : x.toNat < 2 ^ 16), Nat.shiftLeft_eq]
    omega
  rw [BitVec.toNat_or, h, BitVec.toNat_setWidth, Nat.mod_eq_of_lt (by omega : y.toNat < 2 ^ 16),
    ← Nat.shiftLeft_add_eq_or_of_lt (by omega), Nat.shiftLeft_eq]
  omega

theorem be16_toNat (s : Octets) (o : Nat) :
    (be16 s o).toNat = 256 * (octetAt s o).toNat + (octetAt s (o + 1)).toNat :=
  toNat_high_or_low _ _

theorem flagsFromOctets_toNat (f0 f1 : Byte) :
    (flagsFromOctets f0 f1).toNat = f0.toNat + 256 * f1.toNat := by
  have : flagsFromOctets f0 f1 = (f1.setWidth 16 <<< 8) ||| f0.setWidth 16 := BitVec.or_comm _ _
  rw [this, toNat_high_or_low]; omega

/-- The 16-bit read undoes the 16-bit pack. -/
theorem be16_pack16 (w : Half) : be16 (pack16 w.toNat) 0 = w := by
  apply BitVec.eq_of_toNat_eq
  have := w.isLt
  rw [be16_toNat]
  simp only [pack16, octetAt, List.getD_cons_zero, List.getD_cons_succ, BitVec.toNat_ofNat,
    Nat.shiftRight_eq_div_pow]
  omega

theorem flagsUnpack_fields (w : Half) : flagFieldsOf w.toNat (flagsUnpack w) := by
  refine ⟨?_, ?_, ?_, ?_, ?_, ?_, ?_, ?_⟩ <;>
    simp [flagsUnpack, BitVec.toNat_setWidth, BitVec.toNat_ushiftRight, Nat.shiftRight_eq_div_pow]

/-- A field put above the bits already there adds its value at its place. -/
theorem toNat_or_shiftLeft (x : Half) {n : Nat} (y : BitVec n) (k : Nat) (hx : x.toNat < 2 ^ k)
    (hk : k + n ≤ 16) : (x ||| (y.setWidth 16 <<< k)).toNat = x.toNat + 2 ^ k * y.toNat := by
  have hy := y.isLt
  have h2 : y.toNat * 2 ^ k < 2 ^ 16 :=
    calc y.toNat * 2 ^ k < 2 ^ n * 2 ^ k := Nat.mul_lt_mul_of_pos_right hy (Nat.two_pow_pos k)
      _ = 2 ^ (k + n) := by rw [← Nat.pow_add, Nat.add_comm]
      _ ≤ 2 ^ 16 := Nat.pow_le_pow_right (by decide) hk
  have h1 : y.toNat < 2 ^ 16 := Nat.lt_of_lt_of_le hy (Nat.pow_le_pow_right (by decide) (by omega))
  rw [BitVec.or_comm, BitVec.toNat_or, BitVec.toNat_shiftLeft, BitVec.toNat_setWidth, Nat.mod_eq_of_lt h1,
    Nat.shiftLeft_eq, Nat.mod_eq_of_lt h2, ← Nat.shiftLeft_eq, ← Nat.shiftLeft_add_eq_or_of_lt hx,
    Nat.shiftLeft_eq, Nat.mul_comm]
  omega

/-- The flag word's value, field by field (R130). -/
theorem flagsWord_toNat (f : FlagFields) :
    (flagsWord f).toNat =
      f.qr.toNat + 2 * f.opc.toNat + 32 * f.aa.toNat + 64 * f.tc.toNat + 128 * f.rd.toNat +
        256 * f.ra.toNat + 512 * f.z.toNat + 4096 * f.rc.toNat := by
  have h1 := f.qr.isLt
  have h2 := f.opc.isLt
  have h3 := f.aa.isLt
  have h4 := f.tc.isLt
  have h5 := f.rd.isLt
  have h6 := f.ra.isLt
  have h7 := f.z.isLt
  have h0 : (f.qr.setWidth 16).toNat = f.qr.toNat := by rw [BitVec.toNat_setWidth]; omega
  have e2 := toNat_or_shiftLeft (f.qr.setWidth 16) f.opc 1 (by omega) (by decide)
  have e3 := toNat_or_shiftLeft _ f.aa 5 (by rw [e2]; omega) (by decide)
  have e4 := toNat_or_shiftLeft _ f.tc 6 (by rw [e3, e2]; omega) (by decide)
  have e5 := toNat_or_shiftLeft _ f.rd 7 (by rw [e4, e3, e2]; omega) (by decide)
  have e6 := toNat_or_shiftLeft _ f.ra 8 (by rw [e5, e4, e3, e2]; omega) (by decide)
  have e7 := toNat_or_shiftLeft _ f.z 9 (by rw [e6, e5, e4, e3, e2]; omega) (by decide)
  have e8 := toNat_or_shiftLeft _ f.rc 12 (by rw [e7, e6, e5, e4, e3, e2]; omega) (by decide)
  rw [flagsWord, e8, e7, e6, e5, e4, e3, e2, h0]
  omega

/-- The two flag octets: QR, OPC, AA, TC, RD in the first, RA, Z, RC in the second (R132). -/
theorem flagsPack_eq (f : FlagFields) :
    flagsPack f =
      [BitVec.ofNat 8 (f.qr.toNat + 2 * f.opc.toNat + 32 * f.aa.toNat + 64 * f.tc.toNat + 128 * f.rd.toNat),
       BitVec.ofNat 8 (f.ra.toNat + 2 * f.z.toNat + 16 * f.rc.toNat)] := by
  have h1 := f.qr.isLt
  have h2 := f.opc.isLt
  have h3 := f.aa.isLt
  have h4 := f.tc.isLt
  have h5 := f.rd.isLt
  have h := flagsWord_toNat f
  simp only [flagsPack, flagsOctets]
  congr 1
  · apply BitVec.eq_of_toNat_eq
    simp only [BitVec.toNat_ofNat, BitVec.toNat_setWidth, h]; omega
  · congr 1
    apply BitVec.eq_of_toNat_eq
    simp only [BitVec.toNat_ofNat, BitVec.toNat_setWidth, BitVec.toNat_ushiftRight,
      Nat.shiftRight_eq_div_pow, h]
    omega

/-- The header of a datagram that has room for one is what its octets say. -/
theorem hdrUnpack_rxHead (s : State) (h : 12 ≤ s.rxlen) : headerIs s (hdrUnpack s.rxHead) := by
  simp only [headerIs, hdrUnpack, be16_toNat, flagsFromOctets_toNat]
  rw [octetAt_rxHead s 0 (by omega) h, octetAt_rxHead s 1 (by omega) h, octetAt_rxHead s 2 (by omega) h,
    octetAt_rxHead s 3 (by omega) h, octetAt_rxHead s 4 (by omega) h, octetAt_rxHead s 5 (by omega) h,
    octetAt_rxHead s 6 (by omega) h, octetAt_rxHead s 7 (by omega) h, octetAt_rxHead s 8 (by omega) h,
    octetAt_rxHead s 9 (by omega) h, octetAt_rxHead s 10 (by omega) h, octetAt_rxHead s 11 (by omega) h]
  exact ⟨rfl, rfl, rfl, rfl, rfl, rfl⟩

/-- The value of the word fixes the fields. -/
theorem flagFieldsOf_unique {w : Nat} {f g : FlagFields} (h : flagFieldsOf w f) (h' : flagFieldsOf w g)  :
    f = g := by
  obtain ⟨qr, opc, aa, tc, rd, ra, z, rc⟩ := f
  obtain ⟨qr', opc', aa', tc', rd', ra', z', rc'⟩ := g
  obtain ⟨a1, a2, a3, a4, a5, a6, a7, a8⟩ := h
  obtain ⟨b1, b2, b3, b4, b5, b6, b7, b8⟩ := h'
  simp only [FlagFields.mk.injEq]
  refine ⟨?_, ?_, ?_, ?_, ?_, ?_, ?_, ?_⟩ <;> apply BitVec.eq_of_toNat_eq <;> simp only at * <;> omega

theorem pack16_of_lt (v : Nat) (h : v < 65536) :
    pack16 v = [BitVec.ofNat 8 (v / 256), BitVec.ofNat 8 v] := by
  simp only [pack16, Nat.shiftRight_eq_div_pow]
  rw [Nat.mod_eq_of_lt (show v < 2 ^ 16 from h)]

theorem replyFlags_octets (opc : BitVec 4) :
    flagsPack (replyFlags opc) = [BitVec.ofNat 8 (0xA1 + 2 * opc.toNat), 0x01] := by
  rw [flagsPack_eq]
  simp only [replyFlags]
  congr 1
  simp; congr 1; omega

/-- The reply header octet by octet (R142). -/
theorem hdrPack_eq (id : Half) (opc : BitVec 4) (qd an : Half) (q : Octets) :
    hdrPack id opc qd an q =
    [BitVec.ofNat 8 (id.toNat / 256), BitVec.ofNat 8 id.toNat, BitVec.ofNat 8 (0xA1 + 2 * opc.toNat), 0x01,
     BitVec.ofNat 8 (qd.toNat / 256), BitVec.ofNat 8 qd.toNat, BitVec.ofNat 8 (an.toNat / 256), BitVec.ofNat 8 an.toNat,
     0, 0, 0, 0] ++ q := by
  rw [hdrPack, pack16_of_lt _ id.isLt, pack16_of_lt _ qd.isLt, pack16_of_lt _ an.isLt, replyFlags_octets]
  rfl

end Sys2Proof.Machine
end

