-- ==== Sys2Proof/Laws/Label.lean ====
section
/-! SUPPORT. Names: the dotted form and the label form, the encoder, and the decoder against the grammar of R79. -/

namespace Sys2Proof.Machine

/-! ### Splitting and joining -/

theorem splitDots_ne_nil (n : Octets) : splitDots n ≠ [] := by
  cases n with
  | nil => simp [splitDots]
  | cons b n =>
    simp only [splitDots]
    split
    · simp
    · split <;> simp

theorem joinDots_cons {ls : List Octets} (l : Octets) (h : ls ≠ []) :
    joinDots (l :: ls) = l ++ [dot] ++ joinDots ls := by
  cases ls with
  | nil => exact absurd rfl h
  | cons m ls => rfl

/-- Joining undoes splitting: the pieces are those between the DOTs (R110). -/
theorem joinDots_splitDots (n : Octets) : joinDots (splitDots n) = n := by
  induction n with
  | nil => rfl
  | cons b n ih =>
    simp only [splitDots]
    split
    · rename_i hb
      rw [joinDots_cons _ (splitDots_ne_nil n), ih, hb]; rfl
    · split
      · rename_i h; exact absurd h (splitDots_ne_nil n)
      · rename_i l ls h
        rw [h] at ih
        rw [← ih]
        cases ls with
        | nil => rfl
        | cons m ls => rfl

theorem splitDots_dotFree (n : Octets) : dotFree (splitDots n) := by
  induction n with
  | nil => simp [dotFree, splitDots]
  | cons b n ih =>
    simp only [splitDots]
    split
    · intro l hl
      rcases List.mem_cons.mp hl with rfl | hl
      · simp
      · exact ih l hl
    · rename_i hb
      split
      · intro l hl
        rw [List.mem_singleton.mp hl, List.mem_singleton]
        exact fun h => hb h.symm
      · rename_i l ls h
        rw [h] at ih
        intro k hk
        rcases List.mem_cons.mp hk with rfl | hk
        · rw [List.mem_cons, not_or]
          exact ⟨fun h => hb h.symm, ih l (List.mem_cons_self ..)⟩
        · exact ih k (List.mem_cons_of_mem _ hk)

theorem splitDots_append_dot {l : Octets} (h : dot ∉ l) (n : Octets) :
    splitDots (l ++ [dot] ++ n) = l :: splitDots n := by
  induction l with
  | nil => simp [splitDots]
  | cons b l ih =>
    rw [List.mem_cons, not_or] at h
    simp only [List.cons_append, splitDots]
    rw [if_neg (fun hb => h.1 hb.symm), ih h.2]

theorem splitDots_single {l : Octets} (h : dot ∉ l) : splitDots l = [l] := by
  induction l with
  | nil => rfl
  | cons b l ih =>
    rw [List.mem_cons, not_or] at h
    simp only [splitDots]
    rw [if_neg (fun hb => h.1 hb.symm), ih h.2]

/-- Splitting undoes joining for labels without DOT. -/
theorem splitDots_joinDots {ls : List Octets} (hd : dotFree ls) (hn : ls ≠ []) :
    splitDots (joinDots ls) = ls := by
  induction ls with
  | nil => exact absurd rfl hn
  | cons l ls ih =>
    have hl : dot ∉ l := hd l (List.mem_cons_self ..)
    cases ls with
    | nil => exact splitDots_single hl
    | cons m ls =>
      rw [joinDots_cons l (by simp), splitDots_append_dot hl,
        ih (fun k hk => hd k (List.mem_cons_of_mem _ hk)) (by simp)]

theorem joinDots_eq_nil {ls : List Octets} (h : labelsOk ls) (hj : joinDots ls = []) : ls = [] := by
  cases ls with
  | nil => rfl
  | cons l ls =>
    have hl := (h l (List.mem_cons_self ..)).1
    cases ls with
    | nil => simp only [joinDots] at hj; simp [hj] at hl
    | cons m ls => rw [joinDots_cons _ (by simp)] at hj; simp at hj

/-! ### The label form -/

@[simp] theorem labelForm_nil : labelForm [] = [0x00] := rfl

theorem labelForm_cons (l : Octets) (ls : List Octets) :
    labelForm (l :: ls) = labelWire l ++ labelForm ls := by
  simp [labelForm, List.flatMap_cons]

@[simp] theorem labelWire_length (l : Octets) : (labelWire l).length = l.length + 1 := rfl

theorem labelForm_length_pos (ls : List Octets) : 1 ≤ (labelForm ls).length := by
  simp [labelForm]

theorem labelsOk_cons {l : Octets} {ls : List Octets} (h : labelsOk (l :: ls)) :
    (1 ≤ l.length ∧ l.length ≤ 63) ∧ labelsOk ls :=
  ⟨h l (List.mem_cons_self ..), fun k hk => h k (List.mem_cons_of_mem _ hk)⟩

/-- A list of `k` labels takes at least `2 k + 1` octets. -/
theorem labelForm_length_ge {ls : List Octets} (h : labelsOk ls) :
    2 * ls.length + 1 ≤ (labelForm ls).length := by
  induction ls with
  | nil => simp
  | cons l ls ih =>
    have h' := labelsOk_cons h
    have := ih h'.2
    rw [labelForm_cons, List.length_append, labelWire_length, List.length_cons]
    omega

/-- The dotted form is two octets shorter than the label form it stands for (R114). -/
theorem joinDots_length {ls : List Octets} (hn : ls ≠ []) :
    (joinDots ls).length + 2 = (labelForm ls).length := by
  induction ls with
  | nil => exact absurd rfl hn
  | cons l ls ih =>
    rw [labelForm_cons, List.length_append, labelWire_length]
    cases ls with
    | nil => simp [joinDots, labelForm]
    | cons m ls =>
      rw [joinDots_cons _ (by simp)]
      have := ih (by simp)
      simp only [List.length_append, List.length_cons, List.length_nil] at *
      omega

theorem joinDots_length_lt (ls : List Octets) : (joinDots ls).length < (labelForm ls).length := by
  cases ls with
  | nil => simp [joinDots]
  | cons l ls =>
    have := joinDots_length (ls := l :: ls) (by simp)
    omega

theorem labelOk_iff (l : Octets) : labelOk l = true ↔ 1 ≤ l.length ∧ l.length ≤ 63 := by
  rw [labelOk, Bool.and_eq_true, decide_eq_true_eq, decide_eq_true_eq]

theorem all_labelOk_iff (ls : List Octets) : ls.all labelOk = true ↔ labelsOk ls := by
  simp [List.all_eq_true, labelOk_iff, labelsOk]

/-! ### The encoder -/

/-- All that `pack_name` can do (R110, R111). -/
theorem packName_cases (n : Octets) :
    (n = [] ∧ packName n = .ok [0x00]) ∨
    (n ≠ [] ∧ labelsOk (splitDots n) ∧ packName n = .ok (labelForm (splitDots n))) ∨
    (n ≠ [] ∧ ¬ labelsOk (splitDots n) ∧ packName n = .error .nameEncode) := by
  unfold packName
  by_cases hn : n = []
  · exact .inl ⟨hn, if_pos hn⟩
  · rw [if_neg hn, ← all_labelOk_iff]
    by_cases h : (splitDots n).all labelOk = true
    · exact .inr (.inl ⟨hn, h, if_pos h⟩)
    · exact .inr (.inr ⟨hn, h, if_neg h⟩)

/-- A name of well-formed labels without DOT is packed as its label form. -/
theorem packName_joinDots {ls : List Octets} (hok : labelsOk ls) (hd : dotFree ls) :
    packName (joinDots ls) = .ok (labelForm ls) := by
  by_cases hn : ls = []
  · subst hn; rfl
  · have hj : joinDots ls ≠ [] := fun h => hn (joinDots_eq_nil hok h)
    rcases packName_cases (joinDots ls) with h | h | h
    · exact absurd h.1 hj
    · rw [h.2.2, splitDots_joinDots hd hn]
    · rw [splitDots_joinDots hd hn] at h; exact absurd hok h.2.1

/-- A packed name is the label form of well-formed labels whose dotted form is the name. -/
theorem packName_ok {n p : Octets} (h : packName n = .ok p) :
    ∃ ls, labelsOk ls ∧ dotFree ls ∧ joinDots ls = n ∧ p = labelForm ls := by
  rcases packName_cases n with ⟨h1, h2⟩ | ⟨h1, h2, h3⟩ | ⟨h1, h2, h3⟩
  · rw [h2] at h; cases h
    exact ⟨[], by simp [labelsOk], by simp [dotFree], by rw [h1]; rfl, rfl⟩
  · rw [h3] at h; cases h
    exact ⟨splitDots n, h2, splitDots_dotFree n, joinDots_splitDots n, rfl⟩
  · rw [h3] at h; cases h

theorem packName_error {n : Octets} {f : CommandFault} (h : packName n = .error f) :
    f = .nameEncode ∧ n ≠ [] ∧ ¬ labelsOk (splitDots n) := by
  rcases packName_cases n with ⟨h1, h2⟩ | ⟨h1, h2, h3⟩ | ⟨h1, h2, h3⟩
  · rw [h2] at h; cases h
  · rw [h3] at h; cases h
  · rw [h3] at h; cases h; exact ⟨rfl, h1, h2⟩

/-! ### The decoder -/

/-- What the loop of `parse_name` has put together after the labels `ls` (R113). -/
def dottedAfter (name : Octets) (first : Bool) (ls : List Octets) : Octets :=
  if ls = [] then name else (if first then name else name ++ [dot]) ++ joinDots ls

theorem dottedAfter_cons (name : Octets) (first : Bool) (l : Octets) (ls : List Octets) :
    dottedAfter name first (l :: ls) =
      dottedAfter ((if first then name else name ++ [dot]) ++ l) false ls := by
  cases ls with
  | nil => simp [dottedAfter, joinDots]
  | cons m ls => simp [dottedAfter, joinDots_cons]

@[simp] theorem dottedAfter_start (ls : List Octets) : dottedAfter [] true ls = joinDots ls := by
  cases ls <;> simp [dottedAfter, joinDots]

theorem lengthOctet_toNat {l : Octets} (h : l.length ≤ 63) :
    (BitVec.ofNat 8 l.length : Byte).toNat = l.length := by
  simp only [BitVec.toNat_ofNat]; omega

/-- The loop finds the labels that stand at the cursor, given turns enough. -/
theorem parseLoop_complete {s : Octets} {stop : Nat} (ls : List Octets) :
    ∀ (fuel cur : Nat) (name : Octets) (first : Bool), labelsOk ls → ls.length < fuel →
      cur + (labelForm ls).length ≤ stop → slice s cur (labelForm ls).length = labelForm ls →
      parseLoop fuel s cur stop name first =
        .ok (dottedAfter name first ls, cur + (labelForm ls).length) := by
  induction ls with
  | nil =>
    intro fuel cur name first _ hf hs hsl
    cases fuel with
    | zero => omega
    | succ fuel =>
      have h0 := octetAt_of_slice hsl (i := 0) (by simp)
      simp only [labelForm_nil, List.length_singleton] at hs
      simp only [Nat.add_zero] at h0
      simp only [parseLoop]
      rw [if_neg (by omega), if_pos (by rw [h0]; rfl)]
      simp [dottedAfter]
  | cons l ls ih =>
    intro fuel cur name first hok hf hs hsl
    cases fuel with
    | zero => omega
    | succ fuel =>
      obtain ⟨hl, hok'⟩ := labelsOk_cons hok
      have h0 := octetAt_of_slice hsl (i := 0) (by have := labelForm_length_pos (l :: ls); omega)
      rw [labelForm_cons] at hs hsl
      have h2 := (slice_eq_append _ _ _ _).mp hsl
      have hL : (octetAt s cur).toNat = l.length := by
        rw [Nat.add_zero] at h0
        rw [h0]
        exact lengthOctet_toNat hl.2
      have hlab : slice s (cur + 1) l.length = l := by
        have : labelWire l = [BitVec.ofNat 8 l.length] ++ l := rfl
        have h3 := h2.1
        rw [this] at h3
        exact ((slice_eq_append _ _ _ _).mp h3).2
      rw [List.length_append, labelWire_length] at hs
      simp only [parseLoop, hL]
      have hp := labelForm_length_pos ls
      rw [if_neg (by omega), if_neg (by omega), if_neg (by simp only [maxLabel]; omega), if_neg (by omega),
        hlab, ih fuel _ _ _ hok' (by simp only [List.length_cons] at hf; omega) (by omega)
          (by rw [labelWire_length] at h2; rw [show cur + 1 + l.length = cur + (l.length + 1) by omega]; exact h2.2),
        dottedAfter_cons, labelForm_cons, List.length_append, labelWire_length]
      congr 2; omega

/-- What the loop returns stood at the cursor: the labels of a name in label form, and its dotted form. -/
theorem parseLoop_sound {s : Octets} {stop : Nat} (hstop : stop ≤ s.length) (fuel : Nat) :
    ∀ (cur : Nat) (name : Octets) (first : Bool) (n : Octets) (next : Nat),
      parseLoop fuel s cur stop name first = .ok (n, next) →
      ∃ ls, nameAt s cur stop ls next ∧ n = dottedAfter name first ls := by
  induction fuel with
  | zero => intro cur name first n next h; simp [parseLoop] at h
  | succ fuel ih =>
    intro cur name first n next h
    simp only [parseLoop] at h
    split at h
    · cases h
    · rename_i hcur
      split at h
      · rename_i h0
        cases h
        refine ⟨[], ⟨by simp [labelsOk], rfl, by omega, ?_⟩, by simp [dottedAfter]⟩
        rw [labelForm_nil, List.length_singleton, slice_of_octet (by omega)]
        congr 1
        exact BitVec.eq_of_toNat_eq h0
      · rename_i h0
        split at h
        · cases h
        · rename_i h63
          split at h
          · cases h
          · rename_i hend
            obtain ⟨ls, ⟨hok, hnext, hle, hsl⟩, hn⟩ := ih _ _ _ _ _ h
            have hlen : (slice s (cur + 1) (octetAt s cur).toNat).length = (octetAt s cur).toNat := by
              rw [slice_length]; omega
            simp only [maxLabel] at h63
            refine ⟨slice s (cur + 1) (octetAt s cur).toNat :: ls, ⟨?_, ?_, hle, ?_⟩, ?_⟩
            · intro l hl
              rcases List.mem_cons.mp hl with rfl | hl
              · rw [hlen]; omega
              · exact hok l hl
            · rw [hnext, labelForm_cons, List.length_append, labelWire_length, hlen]; omega
            · rw [labelForm_cons]
              refine (slice_eq_append _ _ _ _).mpr ⟨?_, ?_⟩
              · have : labelWire (slice s (cur + 1) (octetAt s cur).toNat) =
                    [octetAt s cur] ++ slice s (cur + 1) (octetAt s cur).toNat := by
                  simp only [labelWire, hlen, BitVec.ofNat_toNat, BitVec.setWidth_eq]; rfl
                rw [this]
                refine (slice_eq_append _ _ _ _).mpr ⟨slice_of_octet (by omega), ?_⟩
                rw [hlen]; rfl
              · rw [labelWire_length, hlen, show cur + ((octetAt s cur).toNat + 1) = cur + 1 + (octetAt s cur).toNat by omega]
                exact hsl
            · rw [hn, dottedAfter_cons]

theorem parseName_of_nameAt {s : Octets} {off stop next : Nat} {ls : List Octets}
    (h : nameAt s off stop ls next) : parseName s off stop = .ok (joinDots ls, next) := by
  obtain ⟨hok, hnext, hle, hsl⟩ := h
  have := labelForm_length_ge hok
  rw [parseName, parseLoop_complete ls (stop + 1) off [] true hok (by omega) (by omega) hsl,
    dottedAfter_start, hnext]

theorem nameAt_of_parseName {s : Octets} {off stop next : Nat} {n : Octets} (hstop : stop ≤ s.length)
    (h : parseName s off stop = .ok (n, next)) : ∃ ls, nameAt s off stop ls next ∧ n = joinDots ls := by
  obtain ⟨ls, h1, h2⟩ := parseLoop_sound hstop _ _ _ _ _ _ h
  exact ⟨ls, h1, by simpa using h2⟩

/-- Two ways to read a name at one offset are one. -/
theorem nameAt_unique {s : Octets} {off stop : Nat} {ls ms : List Octets} {next next' : Nat}
    (h : nameAt s off stop ls next) (h' : nameAt s off stop ms next') :
    joinDots ls = joinDots ms ∧ next = next' := by
  have h1 := parseName_of_nameAt h
  rw [parseName_of_nameAt h'] at h1
  simp only [Except.ok.injEq, Prod.mk.injEq] at h1
  exact ⟨h1.1.symm, h1.2.symm⟩

theorem parseLoop_error {s : Octets} {stop : Nat} (fuel : Nat) :
    ∀ (cur : Nat) (name : Octets) (first : Bool) (f : CommandFault),
      parseLoop fuel s cur stop name first = .error f → f = .malformedMessage := by
  induction fuel with
  | zero => intro cur name first f h; simpa [parseLoop] using h.symm
  | succ fuel ih =>
    intro cur name first f h
    simp only [parseLoop] at h
    repeat' split at h
    all_goals first | (cases h <;> rfl) | exact ih _ _ _ _ h

/-- `parse_name` raises nothing but MalformedMessage, and exactly when no name stands at `off` (R113). -/
theorem parseName_error_iff {s : Octets} {off stop : Nat} (hstop : stop ≤ s.length) :
    parseName s off stop = .error .malformedMessage ↔ ∀ ls next, ¬ nameAt s off stop ls next := by
  constructor
  · intro h ls next hn; rw [parseName_of_nameAt hn] at h; cases h
  · intro h
    cases hp : parseName s off stop with
    | error f => rw [parseLoop_error _ _ _ _ _ hp]
    | ok p =>
      obtain ⟨n, next⟩ := p
      obtain ⟨ls, hl, _⟩ := nameAt_of_parseName hstop hp
      exact absurd hl (h ls next)

/-- The sizes of R114. -/
theorem parseName_sizes {s : Octets} {off stop next : Nat} {n : Octets} (hstop : stop ≤ s.length)
    (h : parseName s off stop = .ok (n, next)) : off < next ∧ next ≤ stop ∧ n.length < next - off := by
  obtain ⟨ls, ⟨_, h1, h2, _⟩, h3⟩ := nameAt_of_parseName hstop h
  have h4 := joinDots_length_lt ls
  have h5 := labelForm_length_pos ls
  rw [← h3] at h4
  omega

/-! ### Counting -/

/-- One piece more than there are DOTs (R110). -/
theorem splitDots_length (n : Octets) : (splitDots n).length = n.count dot + 1 := by
  induction n with
  | nil => rfl
  | cons b n ih =>
    simp only [splitDots]
    split
    · rename_i h; subst h; simp [ih]
    · rename_i h
      rw [List.count_cons_of_ne h, ← ih]
      split
      · rename_i h'; exact absurd h' (splitDots_ne_nil n)
      · rename_i h'; rw [h']; rfl

/-- An empty or overlong label in a name that is not empty is refused (R111). -/
theorem packName_bad {ls : List Octets} (hd : dotFree ls) (hn : joinDots ls ≠ []) (h : ¬ labelsOk ls) :
    packName (joinDots ls) = .error .nameEncode := by
  have hls : ls ≠ [] := by rintro rfl; exact hn rfl
  rcases packName_cases (joinDots ls) with ⟨h1, _⟩ | ⟨_, h2, _⟩ | ⟨_, _, h3⟩
  · exact absurd h1 hn
  · rw [splitDots_joinDots hd hls] at h2; exact absurd h2 h
  · exact h3

theorem joinDots_count (ls : List Octets) (h : ls ≠ []) :
    (joinDots ls).count dot + 1 = (ls.map (List.count dot)).sum + ls.length := by
  induction ls with
  | nil => exact absurd rfl h
  | cons l ls ih =>
    cases ls with
    | nil => simp [joinDots]
    | cons m ls =>
      have := ih (by simp)
      rw [joinDots_cons _ (by simp)]
      simp only [List.count_append, List.map_cons, List.sum_cons, List.length_cons, List.count_singleton_self] at this ⊢
      omega

end Sys2Proof.Machine
end

