-- ==== Sys2Proof/Laws/Question.lean ====
section
/-! SUPPORT. Questions: `q_unpack` against the wire format of R82, one question and several in a row. -/

namespace Sys2Proof.Machine

/-- The two octets of a 16-bit read, packed again. -/
theorem pack16_be16 (s : Octets) (o : Nat) :
    pack16 (be16 s o).toNat = [octetAt s o, octetAt s (o + 1)] := by
  have h0 := (octetAt s o).isLt
  have h1 := (octetAt s (o + 1)).isLt
  simp only [pack16, be16_toNat, Nat.shiftRight_eq_div_pow]
  congr 1
  · apply BitVec.eq_of_toNat_eq; simp only [BitVec.toNat_ofNat]; omega
  · congr 1; apply BitVec.eq_of_toNat_eq; simp only [BitVec.toNat_ofNat]; omega

/-- A 16-bit field that stands at `o` is read there. -/
theorem be16_of_slice {s : Octets} {o : Nat} {w : Half} (h : slice s o 2 = pack16 w.toNat) :
    be16 s o = w := by
  have h' : slice s o (pack16 w.toNat).length = pack16 w.toNat := h
  have h0 := octetAt_of_slice h' (i := 0) (by simp)
  have h1 := octetAt_of_slice h' (i := 1) (by simp)
  rw [Nat.add_zero] at h0
  rw [← be16_pack16 w, be16, be16, h0, h1]

theorem slice_two {s : Octets} {o : Nat} (h : o + 2 ≤ s.length) :
    slice s o 2 = [octetAt s o, octetAt s (o + 1)] := by
  rw [show (2 : Nat) = 1 + 1 from rfl, slice_append, slice_of_octet (by omega), slice_of_octet (by omega)]
  rfl

theorem queryWire_length (q : Query) : (queryWire q).length = (labelForm q.labels).length + 4 := by
  simp [queryWire]

/-- What `q_unpack` returns for a question that stands at `off`. -/
def unpacked (q : Query) (off : Nat) : Question :=
  { name := joinDots q.labels, qtype := q.qtype, qclass := q.qclass
    next := off + (queryWire q).length }

theorem qUnpack_of_wire {s : Octets} {off stop : Nat} {q : Query} (hok : labelsOk q.labels)
    (hs : off + (queryWire q).length ≤ stop) (hsl : slice s off (queryWire q).length = queryWire q) :
    qUnpack s off stop = .ok (unpacked q off) := by
  have hw := queryWire_length q
  have h1 := (slice_eq_append _ _ _ _).mp hsl
  have h2 := (slice_eq_append _ _ _ _).mp h1.1
  rw [List.length_append, pack16_length] at h1
  rw [pack16_length] at h1 h2
  have hn : nameAt s off stop q.labels (off + (labelForm q.labels).length) :=
    ⟨hok, rfl, by omega, h2.1⟩
  simp only [qUnpack, parseName_of_nameAt hn]
  rw [if_neg (by omega), be16_of_slice h2.2, be16_of_slice (by rw [Nat.add_assoc]; exact h1.2)]
  simp only [unpacked, hw, Nat.add_assoc]

/-- What `q_unpack` returns stood at `off` (R150). -/
theorem wire_of_qUnpack {s : Octets} {off stop : Nat} {r : Question} (hstop : stop ≤ s.length)
    (h : qUnpack s off stop = .ok r) :
    ∃ q : Query, labelsOk q.labels ∧ off + (queryWire q).length ≤ stop ∧
      slice s off (queryWire q).length = queryWire q ∧ r = unpacked q off := by
  unfold qUnpack at h
  split at h
  · cases h
  · rename_i n c hp
    obtain ⟨ls, ⟨hok, hc, hle, hsl⟩, hn⟩ := nameAt_of_parseName hstop hp
    split at h
    · cases h
    · rename_i hfit
      have h4 : c + 4 ≤ stop := by omega
      refine ⟨⟨ls, be16 s c, be16 s (c + 2)⟩, hok, ?_, ?_, ?_⟩
      · rw [queryWire_length]; show off + ((labelForm ls).length + 4) ≤ stop; omega
      · refine (slice_eq_append _ _ _ _).mpr ⟨(slice_eq_append _ _ _ _).mpr ⟨hsl, ?_⟩, ?_⟩
        · show slice s (off + (labelForm ls).length) 2 = pack16 (be16 s c).toNat
          rw [← hc, pack16_be16, slice_two (by omega)]
        · rw [List.length_append, pack16_length, ← Nat.add_assoc]
          show slice s (off + (labelForm ls).length + 2) 2 = pack16 (be16 s (c + 2)).toNat
          rw [← hc, pack16_be16, slice_two (by omega)]
      · cases h
        simp only [unpacked, queryWire_length, hn, hc, Nat.add_assoc]

/-- `q_unpack` raises nothing but MalformedMessage, exactly when no question stands at `off`. -/
theorem qUnpack_error_iff {s : Octets} {off stop : Nat} {f : CommandFault} (hstop : stop ≤ s.length) :
    qUnpack s off stop = .error f ↔ f = .malformedMessage ∧ noQueryAt s off stop := by
  have hcase : (∃ r, qUnpack s off stop = .ok r) ∨ qUnpack s off stop = .error .malformedMessage := by
    unfold qUnpack
    split
    · rename_i f hp; exact .inr (by rw [parseLoop_error _ _ _ _ _ hp])
    · split
      · exact .inr rfl
      · exact .inl ⟨_, rfl⟩
  have hno : (∃ r, qUnpack s off stop = .ok r) ↔ ¬ noQueryAt s off stop := by
    constructor
    · rintro ⟨r, hr⟩ hnq
      obtain ⟨q, hok, hle, hsl, _⟩ := wire_of_qUnpack hstop hr
      rw [queryWire_length] at hle
      have h1 := (slice_eq_append _ _ _ _).mp ((slice_eq_append _ _ _ _).mp hsl).1
      have := hnq q.labels _ ⟨hok, rfl, by omega, h1.1⟩
      omega
    · intro h
      by_contra hx
      apply h
      intro ls next hn
      by_contra hlt
      apply hx
      simp only [qUnpack, parseName_of_nameAt hn]
      rw [if_neg hlt]
      exact ⟨_, rfl⟩
  constructor
  · intro h
    have hnq : noQueryAt s off stop := by
      by_contra hx
      obtain ⟨r, hr⟩ := hno.mpr hx
      rw [h] at hr; cases hr
    rcases hcase with ⟨r, hr⟩ | hr
    · rw [h] at hr; cases hr
    · rw [h] at hr; cases hr; exact ⟨rfl, hnq⟩
  · rintro ⟨rfl, hnq⟩
    rcases hcase with h | h
    · exact absurd hnq (hno.mp h)
    · exact h

/-! ### Several questions -/

@[simp] theorem queriesWire_nil : queriesWire [] = [] := rfl

theorem queriesWire_cons (q : Query) (qs : List Query) :
    queriesWire (q :: qs) = queryWire q ++ queriesWire qs := rfl

theorem queriesWire_append (qs rs : List Query) :
    queriesWire (qs ++ rs) = queriesWire qs ++ queriesWire rs := by
  simp [queriesWire]

/-- A first question and then the others. -/
theorem queriesAt_cons (s : Octets) (off stop : Nat) (q : Query) (qs : List Query) :
    queriesAt s off stop (q :: qs) ↔
      (labelsOk q.labels ∧ off + (queryWire q).length ≤ stop ∧
        slice s off (queryWire q).length = queryWire q) ∧
      queriesAt s (off + (queryWire q).length) stop qs := by
  simp only [queriesAt, queriesWire_cons, List.mem_cons]
  rw [slice_eq_append, List.length_append]
  constructor
  · rintro ⟨h1, h2, h3, h4⟩
    exact ⟨⟨h1 q (.inl rfl), by omega, h3⟩, fun r hr => h1 r (.inr hr), by omega, h4⟩
  · rintro ⟨⟨h1, h2, h3⟩, h4, h5, h6⟩
    refine ⟨?_, by omega, h3, h6⟩
    rintro r (rfl | hr)
    · exact h1
    · exact h4 r hr

theorem queriesAt_append (s : Octets) (off stop : Nat) (qs rs : List Query)
    (h : queriesAt s off stop (qs ++ rs)) :
    queriesAt s off stop qs ∧ queriesAt s (off + (queriesWire qs).length) stop rs := by
  obtain ⟨h1, h2, h3⟩ := h
  rw [queriesWire_append] at h2 h3
  have h4 := (slice_eq_append _ _ _ _).mp h3
  rw [List.length_append] at h2
  exact ⟨⟨fun q hq => h1 q (List.mem_append_left _ hq), by omega, h4.1⟩,
    ⟨fun q hq => h1 q (List.mem_append_right _ hq), by omega, h4.2⟩⟩

end Sys2Proof.Machine
end

