-- ==== Sys2Proof/Laws/Dispatcher.lean ====
section
/-! SUPPORT. The dispatcher: the table, the answer record, and all that the question loop of RESPOND can do. -/

namespace Sys2Proof.Machine

/-! ### The table -/

theorem tableFind_none {t : List (Octets × Addr)} {n : Octets} (h : ∀ a, (n, a) ∉ t) :
    tableFind t n = none := by
  induction t with
  | nil => rfl
  | cons c t ih =>
    obtain ⟨k, a⟩ := c
    simp only [tableFind]
    rw [if_neg, ih fun a' ha' => h a' (List.mem_cons_of_mem _ ha')]
    rintro rfl
    exact h a (List.mem_cons_self ..)

theorem tableFind_mem {t : List (Octets × Addr)} {n : Octets} {a : Addr}
    (hn : (t.map Prod.fst).Nodup) (h : (n, a) ∈ t) : tableFind t n = some a := by
  induction t with
  | nil => simp at h
  | cons c t ih =>
    obtain ⟨k, b⟩ := c
    simp only [List.map_cons, List.nodup_cons] at hn
    simp only [tableFind]
    rcases List.mem_cons.mp h with he | h
    · cases he; rw [if_pos rfl]
    · rw [if_neg, ih hn.2 h]
      rintro rfl
      exact hn.1 (List.mem_map.mpr ⟨_, h, rfl⟩)

/-! ### The answer record -/

theorem ansBuild_ok {n p : Octets} (a : Addr) (h : packName n = .ok p) :
    ansBuild n a = .ok (p ++ [0x00, 0x01, 0x00, 0x01, 0x00, 0x00, 0x02, 0x58, 0x00, 0x04] ++ addrOctets a) := by
  simp only [ansBuild, h, List.append_assoc]
  rfl

theorem ansBuild_error {n : Octets} {f : CommandFault} (a : Addr) (h : packName n = .error f) :
    ansBuild n a = .error f := by
  simp only [ansBuild, h]

/-- All that `ans_build` can do. -/
theorem ansBuild_cases (n : Octets) (a : Addr) :
    (∃ p, packName n = .ok p ∧
      ansBuild n a = .ok (p ++ [0x00, 0x01, 0x00, 0x01, 0x00, 0x00, 0x02, 0x58, 0x00, 0x04] ++ addrOctets a)) ∨
    (packName n = .error .nameEncode ∧ ansBuild n a = .error .nameEncode) := by
  rcases packName_cases n with ⟨_, h⟩ | ⟨_, _, h⟩ | ⟨_, _, h⟩
  · exact .inl ⟨_, h, ansBuild_ok a h⟩
  · exact .inl ⟨_, h, ansBuild_ok a h⟩
  · exact .inr ⟨h, ansBuild_error a h⟩

theorem answersTo_cons {c : Config} {q : Query} {qs : List Query} {p rest : Octets}
    (hp : packName (joinDots q.labels) = .ok p) (hr : answersTo c qs = some rest) :
    answersTo c (q :: qs) =
      some (p ++ [0x00, 0x01, 0x00, 0x01, 0x00, 0x00, 0x02, 0x58, 0x00, 0x04] ++
        addrOctets (lookupAddr c (joinDots q.labels)) ++ rest) := by
  simp only [answersTo, hp, hr]

/-! ### The question loop -/

/-- One turn of the loop, the question decoded and its name looked up. -/
def loopTurn (s : State) (q : Query) : State :=
  (s.setQuestion (unpacked q s.cur)).setAddr (lookupAddr s.cfg (joinDots q.labels))

/-- The state after the questions `qs`. -/
def loopState (s : State) (qs : List Query) : State := qs.foldl loopTurn s

@[simp] theorem loopState_nil (s : State) : loopState s [] = s := rfl
@[simp] theorem loopState_cons (s : State) (q : Query) (qs : List Query) :
    loopState s (q :: qs) = loopState (loopTurn s q) qs := rfl
theorem loopState_append (s : State) (qs rs : List Query) :
    loopState s (qs ++ rs) = loopState (loopState s qs) rs := List.foldl_append ..

@[simp] theorem loopTurn_cur (s : State) (q : Query) :
    (loopTurn s q).cur = s.cur + (queryWire q).length := rfl
@[simp] theorem loopTurn_cfg (s : State) (q : Query) : (loopTurn s q).cfg = s.cfg := rfl
@[simp] theorem loopTurn_rx (s : State) (q : Query) : (loopTurn s q).rx = s.rx := rfl
@[simp] theorem loopTurn_rxlen (s : State) (q : Query) : (loopTurn s q).rxlen = s.rxlen := rfl
@[simp] theorem loopTurn_rxBytes (s : State) (q : Query) : (loopTurn s q).rxBytes = s.rxBytes := rfl
@[simp] theorem loopTurn_nameBytes (s : State) (q : Query) :
    (loopTurn s q).nameBytes = joinDots q.labels := setQuestion_nameBytes s (unpacked q s.cur)

/-- The loop writes CUR, NAME, QTYPE, QCLASS and ADDR, and nothing else. -/
theorem loopState_frame (s : State) (qs : List Query) :
    loopState s qs =
      { s with cur := (loopState s qs).cur, name := (loopState s qs).name,
               namelen := (loopState s qs).namelen, qtype := (loopState s qs).qtype,
               qclass := (loopState s qs).qclass, addr := (loopState s qs).addr } := by
  induction qs generalizing s with
  | nil => rfl
  | cons q qs ih => rw [loopState_cons, ih]; rfl

@[simp] theorem loopState_cfg (s : State) (qs : List Query) : (loopState s qs).cfg = s.cfg := by
  rw [loopState_frame]
@[simp] theorem loopState_rx (s : State) (qs : List Query) : (loopState s qs).rx = s.rx := by
  rw [loopState_frame]
@[simp] theorem loopState_rxlen (s : State) (qs : List Query) : (loopState s qs).rxlen = s.rxlen := by
  rw [loopState_frame]
@[simp] theorem loopState_hdr (s : State) (qs : List Query) : (loopState s qs).hdr = s.hdr := by
  rw [loopState_frame]
@[simp] theorem loopState_flags (s : State) (qs : List Query) : (loopState s qs).flags = s.flags := by
  rw [loopState_frame]
@[simp] theorem loopState_src (s : State) (qs : List Query) : (loopState s qs).src = s.src := by
  rw [loopState_frame]
@[simp] theorem loopState_dst (s : State) (qs : List Query) : (loopState s qs).dst = s.dst := by
  rw [loopState_frame]
@[simp] theorem loopState_tx (s : State) (qs : List Query) : (loopState s qs).tx = s.tx := by
  rw [loopState_frame]
@[simp] theorem loopState_txlen (s : State) (qs : List Query) : (loopState s qs).txlen = s.txlen := by
  rw [loopState_frame]
@[simp] theorem loopState_txvalid (s : State) (qs : List Query) :
    (loopState s qs).txvalid = s.txvalid := by
  rw [loopState_frame]
@[simp] theorem loopState_rxBytes (s : State) (qs : List Query) :
    (loopState s qs).rxBytes = s.rxBytes := by
  rw [loopState_frame]; rfl

theorem loopState_cur (s : State) (qs : List Query) :
    (loopState s qs).cur = s.cur + (queriesWire qs).length := by
  induction qs generalizing s with
  | nil => rfl
  | cons q qs ih =>
    rw [loopState_cons, ih, loopTurn_cur, queriesWire_cons, List.length_append, Nat.add_assoc]

/-- After at least one question the registers are those of the last (R207). -/
theorem loopState_last (s : State) (qs : List Query) (q : Query) :
    (loopState s (qs ++ [q])).nameBytes = joinDots q.labels ∧
    (loopState s (qs ++ [q])).qtype = q.qtype ∧ (loopState s (qs ++ [q])).qclass = q.qclass ∧
    (loopState s (qs ++ [q])).addr = lookupAddr s.cfg (joinDots q.labels) := by
  rw [loopState_append]
  refine ⟨loopTurn_nameBytes _ _, rfl, rfl, ?_⟩
  show lookupAddr (loopState s qs).cfg _ = _
  rw [loopState_cfg]

/-- One question is decoded and answered. -/
theorem respondLoop_succ_of_wire {s : State} {q : Query} (n : Nat) (acc : Octets)
    (hok : labelsOk q.labels) (hle : s.cur + (queryWire q).length ≤ s.rxlen)
    (hsl : slice s.rxBytes s.cur (queryWire q).length = queryWire q) :
    respondLoop (n + 1) s acc =
      match ansBuild (joinDots q.labels) (lookupAddr s.cfg (joinDots q.labels)) with
      | .error f => .error (f, loopTurn s q)
      | .ok a => respondLoop n (loopTurn s q) (acc ++ a) := by
  rw [respondLoop, qUnpack_of_wire hok hle hsl]
  simp only [setQuestion_nameBytes, State.setQuestion_cfg]
  have h : ((s.setQuestion (unpacked q s.cur)).setAddr (lookupAddr s.cfg (unpacked q s.cur).name)).nameBytes
      = joinDots q.labels := loopTurn_nameBytes s q
  rw [h]
  rfl

/-- The loop over answerable questions that stand at the cursor, whatever number comes after them. -/
theorem respondLoop_answers (qs : List Query) :
    ∀ (s : State) (k : Nat) (acc ans : Octets), queriesAt s.rxBytes s.cur s.rxlen qs →
      answersTo s.cfg qs = some ans →
      respondLoop (qs.length + k) s acc = respondLoop k (loopState s qs) (acc ++ ans) := by
  induction qs with
  | nil =>
    intro s k acc ans _ ha
    simp only [answersTo, Option.some.injEq] at ha
    simp [← ha]
  | cons q qs ih =>
    intro s k acc ans hq ha
    obtain ⟨⟨h1, h2, h3⟩, h4⟩ := (queriesAt_cons _ _ _ _ _).mp hq
    simp only [answersTo] at ha
    split at ha
    · rename_i p rest hp hr
      rw [Option.some.injEq] at ha
      rw [List.length_cons, Nat.add_right_comm, respondLoop_succ_of_wire _ _ h1 h2 h3, ansBuild_ok _ hp]
      simp only
      rw [ih (loopTurn s q) k _ rest h4 hr, loopState_cons, ← ha]
      simp only [List.append_assoc]
    · cases ha

/-- How the loop can end: all `n` questions stood there and were answered, or after some of them none stood at the cursor, or one stood there whose name cannot be encoded (R175, R207, R209). -/
theorem respondLoop_cases (n : Nat) :
    ∀ (s : State) (acc : Octets), s.cur ≤ s.rxlen →
      (∃ qs ans, qs.length = n ∧ queriesAt s.rxBytes s.cur s.rxlen qs ∧
        answersTo s.cfg qs = some ans ∧ respondLoop n s acc = .ok (loopState s qs, acc ++ ans)) ∨
      (∃ qs ans, qs.length < n ∧ queriesAt s.rxBytes s.cur s.rxlen qs ∧
        answersTo s.cfg qs = some ans ∧
        noQueryAt s.rxBytes (s.cur + (queriesWire qs).length) s.rxlen ∧
        respondLoop n s acc = .error (.malformedMessage, loopState s qs)) ∨
      (∃ qs q ans, qs.length < n ∧ queriesAt s.rxBytes s.cur s.rxlen (qs ++ [q]) ∧
        answersTo s.cfg qs = some ans ∧ packName (joinDots q.labels) = .error .nameEncode ∧
        respondLoop n s acc = .error (.nameEncode, loopState s (qs ++ [q]))) := by
  induction n with
  | zero =>
    intro s acc hcur
    exact .inl ⟨[], [], rfl, ⟨by simp, by simpa using hcur, by simp⟩, rfl, by simp [respondLoop]⟩
  | succ n ih =>
    intro s acc hcur
    have hlen : s.rxlen ≤ s.rxBytes.length := by simp
    cases hq : qUnpack s.rxBytes s.cur s.rxlen with
    | error f =>
      obtain ⟨rfl, hno⟩ := (qUnpack_error_iff hlen).mp hq
      refine .inr (.inl ⟨[], [], by simp, ⟨by simp, by simpa using hcur, by simp⟩, rfl, by simpa using hno, ?_⟩)
      simp only [respondLoop, hq, loopState_nil]
    | ok r =>
      obtain ⟨q, hok, hle, hsl, rfl⟩ := wire_of_qUnpack hlen hq
      have hturn := respondLoop_succ_of_wire n acc hok hle hsl
      rcases ansBuild_cases (joinDots q.labels) (lookupAddr s.cfg (joinDots q.labels)) with
        ⟨p, hp, ha⟩ | ⟨hp, ha⟩
      · rw [ha] at hturn
        rcases ih (loopTurn s q) (acc ++ (p ++ [0x00, 0x01, 0x00, 0x01, 0x00, 0x00, 0x02, 0x58, 0x00, 0x04] ++
            addrOctets (lookupAddr s.cfg (joinDots q.labels)))) hle with
          ⟨qs, ans, h1, h2, h3, h4⟩ | ⟨qs, ans, h1, h2, h3, h4, h5⟩ | ⟨qs, q', ans, h1, h2, h3, h4, h5⟩
        · have hans := answersTo_cons hp h3
          refine .inl ⟨q :: qs, _, by simp [h1], (queriesAt_cons _ _ _ _ _).mpr ⟨⟨hok, hle, hsl⟩, h2⟩, hans, ?_⟩
          rw [hturn]; simp only; rw [h4, loopState_cons]
          simp only [List.append_assoc, loopTurn_cfg]
        · have hans := answersTo_cons hp h3
          refine .inr (.inl ⟨q :: qs, _, by simpa using h1,
            (queriesAt_cons _ _ _ _ _).mpr ⟨⟨hok, hle, hsl⟩, h2⟩, hans, ?_, ?_⟩)
          · rw [queriesWire_cons, List.length_append, ← Nat.add_assoc]; exact h4
          · rw [hturn]; simp only; rw [h5, loopState_cons]
        · have hans := answersTo_cons hp h3
          refine .inr (.inr ⟨q :: qs, q', _, by simpa using h1,
            (queriesAt_cons _ _ _ _ _).mpr ⟨⟨hok, hle, hsl⟩, h2⟩, hans, h4, ?_⟩)
          rw [hturn]; simp only; rw [h5, List.cons_append, loopState_cons]
      · rw [ha] at hturn
        refine .inr (.inr ⟨[], q, [], by simp, ?_, rfl, hp, ?_⟩)
        · refine (queriesAt_cons _ _ _ _ _).mpr ⟨⟨hok, hle, hsl⟩, by simp, ?_, by simp⟩
          simpa using hle
        · rw [hturn]; rfl

end Sys2Proof.Machine
end

