-- ==== Sys2Proof/Laws/Respond.lean ====
section
/-! SUPPORT. All that RESPOND can do, said once: the six ways in which its body ends, each with the state it leaves. -/

namespace Sys2Proof.Machine

/-- The state in which RESPOND tests the opcode. -/
def respondStart (s : State) : State := respondHeader (s.clearTx.setTxvalid false)

/-- What precedes the answers in the reply to the questions `qs` (R86). -/
def replyHead (s : State) (qs : List Query) : Octets :=
  [s.rxOctet 0, s.rxOctet 1, 0xA1, 0x01, s.rxOctet 4, s.rxOctet 5, s.rxOctet 4, s.rxOctet 5,
    0x00, 0x00, 0x00, 0x00] ++ queriesWire qs

theorem replyHead_length (s : State) (qs : List Query) :
    (replyHead s qs).length = 12 + (queriesWire qs).length := by
  simp [replyHead]; omega

/-- The reply stored, valid, for the sender. -/
def replied (s : State) (reply : Octets) : State := ((s.storeTx 0 reply).setDst s.src).setTxvalid true

theorem respondStart_hdr (s : State) (h : 12 ≤ s.rxlen) : headerIs s (respondStart s).hdr :=
  hdrUnpack_rxHead s h

theorem respondStart_flags (s : State) :
    flagFieldsOf (respondStart s).hdr.fw.toNat (respondStart s).flags := flagsUnpack_fields _

@[simp] theorem respondStart_cur (s : State) : (respondStart s).cur = 12 := rfl
@[simp] theorem respondStart_cfg (s : State) : (respondStart s).cfg = s.cfg := rfl
@[simp] theorem respondStart_rxlen (s : State) : (respondStart s).rxlen = s.rxlen := rfl
@[simp] theorem respondStart_rxBytes (s : State) : (respondStart s).rxBytes = s.rxBytes := rfl
@[simp] theorem respondStart_src (s : State) : (respondStart s).src = s.src := rfl
@[simp] theorem respondStart_dst (s : State) : (respondStart s).dst = s.dst := rfl
@[simp] theorem respondStart_txlen (s : State) : (respondStart s).txlen = 0 := rfl
@[simp] theorem respondStart_txvalid (s : State) : (respondStart s).txvalid = false := rfl
@[simp] theorem respondStart_tx (s : State) : (respondStart s).tx = s.tx.touch := rfl

theorem respondStart_opc (s : State) (h : 12 ≤ s.rxlen) :
    (respondStart s).flags.opc.toNat = (s.rxOctet 2).toNat / 2 % 16 := by
  rw [(respondStart_flags s).2.1, (respondStart_hdr s h).2.1]; omega

theorem respondStart_qd (s : State) (h : 12 ≤ s.rxlen) :
    (respondStart s).hdr.qd.toNat = 256 * (s.rxOctet 4).toNat + (s.rxOctet 5).toNat :=
  (respondStart_hdr s h).2.2.1

theorem exec_respond_of_error {s t : State} {f : CommandFault} (h : respondBody s = .error (f, t)) :
    exec .respond s = .next (t.forgetTx.setStatus f.code) := by
  simp only [exec, execRespond, h]; rfl

theorem exec_respond_of_ok {s t : State} (h : respondBody s = .ok t) :
    exec .respond s = .next (t.setStatus 0) := by
  simp only [exec, execRespond, h]

theorem respondBody_short (s : State) (h : s.rxlen < 12) :
    respondBody s = .error (.malformedMessage, s.clearTx.setTxvalid false) := by
  simp only [respondBody]
  rw [if_pos (show (s.clearTx.setTxvalid false).rxlen < hdrLen from h)]

theorem respondBody_gate (s : State) (h : 12 ≤ s.rxlen) (ho : (s.rxOctet 2).toNat / 2 % 16 ≠ 0) :
    respondBody s = .error (.unsupportedOpcode, respondStart s) := by
  simp only [respondBody]
  rw [if_neg (show ¬ (s.clearTx.setTxvalid false).rxlen < hdrLen from Nat.not_lt.mpr h), if_pos]; rfl
  intro hx
  apply ho
  rw [← respondStart_opc s h]
  show (respondStart s).flags.opc.toNat = 0
  rw [show (respondStart s).flags.opc = 0 from hx]; rfl

theorem respondBody_loop (s : State) (h : 12 ≤ s.rxlen) (ho : (s.rxOctet 2).toNat / 2 % 16 = 0) :
    respondBody s =
      match respondLoop (respondStart s).hdr.qd.toNat (respondStart s) [] with
      | .error e => .error e
      | .ok (t, ans) => respondReply t ans := by
  simp only [respondBody]
  rw [if_neg (show ¬ (s.clearTx.setTxvalid false).rxlen < hdrLen from Nat.not_lt.mpr h), if_neg]; rfl
  intro hx; apply hx
  apply BitVec.eq_of_toNat_eq
  exact (respondStart_opc s h).trans ho

theorem questionEcho_loopState (s : State) (qs : List Query) (hq : queriesAt s.rxBytes 12 s.rxlen qs) :
    (loopState (respondStart s) qs).questionEcho = queriesWire qs := by
  show slice (loopState (respondStart s) qs).rxBytes 12 ((loopState (respondStart s) qs).cur - 12) = _
  rw [loopState_rxBytes, loopState_cur, respondStart_cur, Nat.add_sub_cancel_left]
  exact hq.2.2

theorem hdrPack_loopState (s : State) (qs : List Query) (h : 12 ≤ s.rxlen)
    (ho : (s.rxOctet 2).toNat / 2 % 16 = 0) (hq : queriesAt s.rxBytes 12 s.rxlen qs) :
    hdrPack (loopState (respondStart s) qs).hdr.id (loopState (respondStart s) qs).flags.opc
      (loopState (respondStart s) qs).hdr.qd (loopState (respondStart s) qs).hdr.qd
      (loopState (respondStart s) qs).questionEcho = replyHead s qs := by
  rw [questionEcho_loopState s qs hq, loopState_hdr, loopState_flags, hdrPack]
  have e1 : pack16 (respondStart s).hdr.id.toNat = [s.rxOctet 0, s.rxOctet 1] := by
    show pack16 (be16 (s.clearTx.setTxvalid false).rxHead 0).toNat = _
    rw [pack16_be16]
    show [octetAt s.rxHead 0, octetAt s.rxHead 1] = _
    rw [octetAt_rxHead _ 0 (by omega) h, octetAt_rxHead _ 1 (by omega) h]
  have e2 : pack16 (respondStart s).hdr.qd.toNat = [s.rxOctet 4, s.rxOctet 5] := by
    show pack16 (be16 (s.clearTx.setTxvalid false).rxHead 4).toNat = _
    rw [pack16_be16]
    show [octetAt s.rxHead 4, octetAt s.rxHead 5] = _
    rw [octetAt_rxHead _ 4 (by omega) h, octetAt_rxHead _ 5 (by omega) h]
  have e3 : (respondStart s).flags.opc = 0 := BitVec.eq_of_toNat_eq ((respondStart_opc s h).trans ho)
  rw [e1, e2, e3]; rfl

theorem respondReply_fits (s : State) (qs : List Query) (ans : Octets) (h : 12 ≤ s.rxlen)
    (ho : (s.rxOctet 2).toNat / 2 % 16 = 0) (hq : queriesAt s.rxBytes 12 s.rxlen qs)
    (hm : 12 + (queriesWire qs).length + ans.length ≤ s.cfg.maxLen) :
    respondReply (loopState (respondStart s) qs) ans =
      .ok (replied (loopState (respondStart s) qs) (replyHead s qs ++ ans)) := by
  rw [respondReply, hdrPack_loopState s qs h ho hq, if_neg]; rfl
  rw [loopState_cfg, List.length_append, replyHead_length]
  exact Nat.not_lt.mpr hm

theorem respondReply_overflows (s : State) (qs : List Query) (ans : Octets) (h : 12 ≤ s.rxlen)
    (ho : (s.rxOctet 2).toNat / 2 % 16 = 0) (hq : queriesAt s.rxBytes 12 s.rxlen qs)
    (hm : s.cfg.maxLen < 12 + (queriesWire qs).length + ans.length) :
    respondReply (loopState (respondStart s) qs) ans =
      .error (.txOverflow, loopState (respondStart s) qs) := by
  rw [respondReply, hdrPack_loopState s qs h ho hq, if_pos]
  rw [loopState_cfg, List.length_append, replyHead_length]
  exact hm

/-- The loop of RESPOND over the answerable questions that stand after the header, whatever number is declared. -/
theorem respondLoop_start (s : State) (qs : List Query) (ans : Octets) (n : Nat) (hn : qs.length ≤ n)
    (hq : queriesAt s.rxBytes 12 s.rxlen qs) (ha : answersTo s.cfg qs = some ans) :
    respondLoop n (respondStart s) [] =
      respondLoop (n - qs.length) (loopState (respondStart s) qs) ans := by
  have := respondLoop_answers qs (respondStart s) (n - qs.length) [] ans hq ha
  rw [show qs.length + (n - qs.length) = n by omega] at this
  simpa using this

/-- The six ends of RESPOND. -/
theorem respondBody_cases (s : State) :
    (s.rxlen < 12 ∧ respondBody s = .error (.malformedMessage, s.clearTx.setTxvalid false)) ∨
    (12 ≤ s.rxlen ∧ (s.rxOctet 2).toNat / 2 % 16 ≠ 0 ∧
      respondBody s = .error (.unsupportedOpcode, respondStart s)) ∨
    (12 ≤ s.rxlen ∧ (s.rxOctet 2).toNat / 2 % 16 = 0 ∧ ∃ qs ans,
      queriesAt s.rxBytes 12 s.rxlen qs ∧ answersTo s.cfg qs = some ans ∧
      ((256 * (s.rxOctet 4).toNat + (s.rxOctet 5).toNat = qs.length ∧
          12 + (queriesWire qs).length + ans.length ≤ s.cfg.maxLen ∧
          respondBody s = .ok (replied (loopState (respondStart s) qs) (replyHead s qs ++ ans))) ∨
       (256 * (s.rxOctet 4).toNat + (s.rxOctet 5).toNat = qs.length ∧
          s.cfg.maxLen < 12 + (queriesWire qs).length + ans.length ∧
          respondBody s = .error (.txOverflow, loopState (respondStart s) qs)) ∨
       (qs.length < 256 * (s.rxOctet 4).toNat + (s.rxOctet 5).toNat ∧
          noQueryAt s.rxBytes (12 + (queriesWire qs).length) s.rxlen ∧
          respondBody s = .error (.malformedMessage, loopState (respondStart s) qs)) ∨
       (∃ q, qs.length < 256 * (s.rxOctet 4).toNat + (s.rxOctet 5).toNat ∧
          queriesAt s.rxBytes 12 s.rxlen (qs ++ [q]) ∧
          packName (joinDots q.labels) = .error .nameEncode ∧
          respondBody s = .error (.nameEncode, loopState (respondStart s) (qs ++ [q]))))) := by
  rcases Nat.lt_or_ge s.rxlen 12 with h | h
  · exact .inl ⟨h, respondBody_short s h⟩
  · right
    by_cases ho : (s.rxOctet 2).toNat / 2 % 16 = 0
    · right
      refine ⟨h, ho, ?_⟩
      have hb := respondBody_loop s h ho
      rw [respondStart_qd s h] at hb
      rcases respondLoop_cases (256 * (s.rxOctet 4).toNat + (s.rxOctet 5).toNat) (respondStart s) [] h with
        ⟨qs, ans, h1, h2, h3, h4⟩ | ⟨qs, ans, h1, h2, h3, h4, h5⟩ | ⟨qs, q, ans, h1, h2, h3, h4, h5⟩
      · refine ⟨qs, ans, h2, h3, ?_⟩
        rw [h4] at hb
        rcases Nat.lt_or_ge s.cfg.maxLen (12 + (queriesWire qs).length + ans.length) with hm | hm
        · exact .inr (.inl ⟨h1.symm, hm, hb.trans (respondReply_overflows s qs ans h ho h2 hm)⟩)
        · exact .inl ⟨h1.symm, hm, hb.trans (respondReply_fits s qs ans h ho h2 hm)⟩
      · rw [h5] at hb
        exact ⟨qs, ans, h2, h3, .inr (.inr (.inl ⟨h1, h4, hb⟩))⟩
      · rw [h5] at hb
        exact ⟨qs, ans, (queriesAt_append _ _ _ _ _ h2).1, h3, .inr (.inr (.inr ⟨q, h1, h2, h4, hb⟩))⟩
    · exact .inl ⟨h, ho, respondBody_gate s h ho⟩

/-! ### What the end of RESPOND leaves -/

theorem replied_txBytes (s : State) (r : Octets) : ((replied s r).setStatus 0).txBytes = r := by
  show Buffer.bytes txNo (s.tx.store 0 r) (0 + r.length) = r
  rw [Nat.zero_add]; exact store_zero_bytes _ _ _

theorem replied_outside (s : State) (r : Octets) (a : Nat) (h : r.length ≤ a) :
    Memory.read? ((replied s r).setStatus 0).tx.cells a = Memory.read? s.tx.cells a :=
  read?_writeAll_outside _ _ _ _ (.inr (by omega))

/-- Whatever the end, the registers are those of the questions decoded. -/
theorem afterQueries_loopState (s : State) (h : 12 ≤ s.rxlen) (qs : List Query) (t : State)
    (ht : t = { loopState (respondStart s) qs with
                status := t.status, tx := t.tx, txlen := t.txlen, txvalid := t.txvalid, dst := t.dst }) :
    afterQueries s t qs := by
  have hh : t.hdr = (respondStart s).hdr := by rw [ht]; exact loopState_hdr _ _
  have hf : t.flags = (respondStart s).flags := by rw [ht]; exact loopState_flags _ _
  refine ⟨hh ▸ respondStart_hdr s h, ?_, ?_, ?_, ?_⟩
  · rw [hh, hf]; exact respondStart_flags s
  · rw [ht]; exact loopState_cur _ _
  · rcases List.eq_nil_or_concat qs with rfl | ⟨rs, q, rfl⟩
    · simp only [List.getLast?_nil]; rw [ht]; exact ⟨rfl, rfl, rfl, rfl, rfl⟩
    · simp only [List.concat_eq_append, List.getLast?_concat] at *
      rw [ht]; exact loopState_last _ _ _
  · rw [ht, loopState_frame]; rfl

end Sys2Proof.Machine
end

