-- ==== Sys2Proof/Laws/Commands.lean ====
section
/-! SUPPORT. All that each command can do, said once: one lemma per shape of command. -/

namespace Sys2Proof.Machine

/-- What a command that appends can do: a fault of its own, or a store of all its output at TXLEN. -/
def appendsOrFaults (s t : State) : Prop :=
  (∃ f : CommandFault, t = s.setStatus f.code) ∨
  (∃ b : Octets, s.txlen + b.length ≤ s.cfg.maxLen ∧ t = (s.storeTx s.txlen b).setStatus 0)

theorem endLeaf_append_cases {s t : State} {b : Octets} (h : endLeaf s (s.append b) = .next t) :
    t = s.setStatus 4 ∨
    (s.txlen + b.length ≤ s.cfg.maxLen ∧ t = (s.storeTx s.txlen b).setStatus 0) := by
  rcases append_cases s b with ⟨h1, h2⟩ | ⟨_, h2⟩
  · rw [h2] at h; cases h; exact .inr ⟨h1, rfl⟩
  · rw [h2] at h; cases h; exact .inl rfl

theorem appendsOrFaults_of_append {s t : State} {b : Octets} (h : endLeaf s (s.append b) = .next t) :
    appendsOrFaults s t := by
  rcases endLeaf_append_cases h with h | ⟨h1, h2⟩
  · exact .inl ⟨.txOverflow, h⟩
  · exact .inr ⟨b, h1, h2⟩

theorem exec_pack16_cases {s t : State} (h : exec .pack16 s = .next t) : appendsOrFaults s t :=
  appendsOrFaults_of_append h

theorem exec_pack32_cases {s t : State} (h : exec .pack32 s = .next t) : appendsOrFaults s t :=
  appendsOrFaults_of_append h

theorem exec_flagspack_cases {s t : State} (h : exec .flagspack s = .next t) : appendsOrFaults s t :=
  appendsOrFaults_of_append h

theorem exec_packname_cases {s t : State} (h : exec .packname s = .next t) : appendsOrFaults s t := by
  simp only [exec, execPackname] at h
  split at h
  · cases h; exact .inl ⟨_, rfl⟩
  · exact appendsOrFaults_of_append h

theorem exec_ansbuild_cases {s t : State} (h : exec .ansbuild s = .next t) : appendsOrFaults s t := by
  simp only [exec, execAnsbuild] at h
  split at h
  · cases h; exact .inl ⟨_, rfl⟩
  · exact appendsOrFaults_of_append h

theorem exec_hdrpack_cases {s t : State} (h : exec .hdrpack s = .next t) : appendsOrFaults s t := by
  simp only [exec, execHdrpack] at h
  split at h
  · cases h; exact .inl ⟨.operandRange, rfl⟩
  · exact appendsOrFaults_of_append h

theorem exec_parsename_cases {s t : State} (h : exec .parsename s = .next t) :
    t = s.setStatus 1 ∨
    (∃ n next, parseName s.rxBytes s.cur s.rxlen = .ok (n, next) ∧
      t = ((s.setName n).setCur next).setStatus 0) := by
  simp only [exec, execParsename] at h
  split at h
  · rename_i f hf
    obtain rfl := parseLoop_error _ _ _ _ _ hf
    cases h; exact .inl rfl
  · rename_i n next hn; cases h; exact .inr ⟨n, next, hn, rfl⟩

theorem exec_qunpack_cases {s t : State} (h : exec .qunpack s = .next t) :
    t = s.setStatus 1 ∨
    (∃ q, qUnpack s.rxBytes s.cur s.rxlen = .ok q ∧ t = (s.setQuestion q).setStatus 0) := by
  simp only [exec, execQunpack] at h
  split at h
  · rename_i f hf
    obtain ⟨rfl, _⟩ := (qUnpack_error_iff (by simp)).mp hf
    cases h; exact .inl rfl
  · rename_i q hq; cases h; exact .inr ⟨q, hq, rfl⟩

theorem exec_hdrunpack_cases {s t : State} (h : exec .hdrunpack s = .next t) :
    (s.rxlen < 12 ∧ t = s.setStatus 1) ∨
    (12 ≤ s.rxlen ∧ t = ((s.setHdr (hdrUnpack s.rxHead)).setCur 12).setStatus 0) := by
  simp only [exec, execHdrunpack] at h
  split at h
  · rename_i hl; cases h; exact .inl ⟨hl, rfl⟩
  · rename_i hl; cases h; exact .inr ⟨Nat.not_lt.mp hl, rfl⟩

theorem exec_flagsunpack_eq (s : State) :
    exec .flagsunpack s = .next ((s.setFlags (flagsUnpack s.hdr.fw)).setStatus 0) := rfl

theorem exec_lookup_eq (s : State) :
    exec .lookup s = .next ((s.setAddr (lookupAddr s.cfg s.nameBytes)).setStatus 0) := rfl

/-- What RESPOND can do: the reply to the questions in the datagram, stored whole; or a drop that leaves the state before the raise with the octets of TX unspecified. -/
theorem exec_respond_cases {s t : State} (h : exec .respond s = .next t) :
    (∃ f u, respondBody s = .error (f, u) ∧ t = u.forgetTx.setStatus f.code ∧
      (u = s.clearTx.setTxvalid false ∧ f = .malformedMessage ∨
        12 ≤ s.rxlen ∧ ∃ qs, queriesAt s.rxBytes 12 s.rxlen qs ∧ u = loopState (respondStart s) qs ∧
          (f = .malformedMessage ∨ f = .unsupportedOpcode ∨ f = .nameEncode ∨ f = .txOverflow))) ∨
    (∃ qs ans, 12 ≤ s.rxlen ∧ (s.rxOctet 2).toNat / 2 % 16 = 0 ∧
      256 * (s.rxOctet 4).toNat + (s.rxOctet 5).toNat = qs.length ∧
      queriesAt s.rxBytes 12 s.rxlen qs ∧ answersTo s.cfg qs = some ans ∧
      12 + (queriesWire qs).length + ans.length ≤ s.cfg.maxLen ∧
      t = (replied (loopState (respondStart s) qs) (replyHead s qs ++ ans)).setStatus 0) := by
  have key : ∀ f u, respondBody s = .error (f, u) → t = u.forgetTx.setStatus f.code := by
    intro f u hb
    rw [exec_respond_of_error hb] at h; cases h; rfl
  rcases respondBody_cases s with ⟨_, hb⟩ | ⟨h1, _, hb⟩ | ⟨h1, ho, qs, ans, hq, ha, hc⟩
  · exact .inl ⟨_, _, hb, key _ _ hb, .inl ⟨rfl, rfl⟩⟩
  · exact .inl ⟨_, _, hb, key _ _ hb, .inr ⟨h1, [], ⟨by simp, by simpa using h1, by simp⟩, rfl, .inr (.inl rfl)⟩⟩
  · rcases hc with ⟨hn, hm, hb⟩ | ⟨_, _, hb⟩ | ⟨_, _, hb⟩ | ⟨q, _, hqq, _, hb⟩
    · rw [exec_respond_of_ok hb] at h; cases h
      exact .inr ⟨qs, ans, h1, ho, hn, hq, ha, hm, rfl⟩
    · exact .inl ⟨_, _, hb, key _ _ hb, .inr ⟨h1, qs, hq, rfl, .inr (.inr (.inr rfl))⟩⟩
    · exact .inl ⟨_, _, hb, key _ _ hb, .inr ⟨h1, qs, hq, rfl, .inl rfl⟩⟩
    · exact .inl ⟨_, _, hb, key _ _ hb, .inr ⟨h1, qs ++ [q], hqq, rfl, .inr (.inr (.inl rfl))⟩⟩

/-! ### Frames -/

/-- The frame of every command that appends. -/
theorem appends_frame {s t : State} (h : appendsOrFaults s t) :
    t = { s with status := t.status, tx := t.tx, txlen := t.txlen } := by
  rcases h with ⟨f, rfl⟩ | ⟨b, _, rfl⟩ <;> rfl

/-- The frame of RESPOND (R173, R207). -/
theorem exec_respond_frame {s t : State} (h : exec .respond s = .next t) :
    t = { s with
        status := t.status, cur := t.cur, tx := t.tx, txlen := t.txlen, txvalid := t.txvalid,
        dst := t.dst, name := t.name, namelen := t.namelen, hdr := t.hdr, flags := t.flags,
        qtype := t.qtype, qclass := t.qclass, addr := t.addr } := by
  rcases exec_respond_cases h with ⟨f, u, _, rfl, ⟨rfl, _⟩ | ⟨h12, qs, _, rfl, _⟩⟩ | ⟨qs, ans, h12, _, _, _, _, _, rfl⟩
  · rfl
  · exact (afterQueries_loopState s h12 qs _ rfl).2.2.2.2
  · exact (afterQueries_loopState s h12 qs _ rfl).2.2.2.2

theorem exec_parsename_frame {s t : State} (h : exec .parsename s = .next t) :
    t = { s with status := t.status, cur := t.cur, name := t.name, namelen := t.namelen } := by
  rcases exec_parsename_cases h with rfl | ⟨_, _, _, rfl⟩ <;> rfl

theorem exec_qunpack_frame {s t : State} (h : exec .qunpack s = .next t) :
    t = { s with status := t.status, cur := t.cur, name := t.name, namelen := t.namelen, qtype := t.qtype, qclass := t.qclass } := by
  rcases exec_qunpack_cases h with rfl | ⟨_, _, rfl⟩ <;> rfl

theorem exec_hdrunpack_frame {s t : State} (h : exec .hdrunpack s = .next t) :
    t = { s with status := t.status, cur := t.cur, hdr := t.hdr } := by
  rcases exec_hdrunpack_cases h with ⟨_, rfl⟩ | ⟨_, rfl⟩ <;> rfl

theorem exec_flagsunpack_frame {s t : State} (h : exec .flagsunpack s = .next t) :
    t = { s with status := t.status, flags := t.flags } := by
  rw [exec_flagsunpack_eq] at h; cases h; rfl

theorem exec_lookup_frame {s t : State} (h : exec .lookup s = .next t) :
    t = { s with status := t.status, addr := t.addr } := by
  rw [exec_lookup_eq] at h; cases h; rfl

end Sys2Proof.Machine
end

