-- ==== Sys2Proof/Laws/PerInstr.lean ====
section
/-! SUPPORT. Statements made per command: its word is a 4-bit word that no other command has and that the decoder reads, alone and from its octet. -/

namespace Sys2Proof.Laws.WordRoundTrip

/-- The word of `i` is read as `i`, and so is the octet that carries it, in the host's numbering too. -/
def Statement (i : Instr) : Prop :=
  i.wellFormed = true ∧ decodeWord (encode i) = .ok i ∧ decode (encodeBytes i) = .ok (i, []) ∧
    decodeTableWord 8 (encode i).toNat = some i

theorem pack16 : Statement .pack16 := by unfold Statement; decide
theorem pack32 : Statement .pack32 := by unfold Statement; decide
theorem packname : Statement .packname := by unfold Statement; decide
theorem parsename : Statement .parsename := by unfold Statement; decide
theorem flagsunpack : Statement .flagsunpack := by unfold Statement; decide
theorem flagspack : Statement .flagspack := by unfold Statement; decide
theorem hdrunpack : Statement .hdrunpack := by unfold Statement; decide
theorem hdrpack : Statement .hdrpack := by unfold Statement; decide
theorem qunpack : Statement .qunpack := by unfold Statement; decide
theorem ansbuild : Statement .ansbuild := by unfold Statement; decide
theorem lookup : Statement .lookup := by unfold Statement; decide
theorem respond : Statement .respond := by unfold Statement; decide

end Sys2Proof.Laws.WordRoundTrip
end

