-- ==== Sys2Proof/Laws/Step.lean ====
section
/-! SUPPORT. What a step can do, said once: the block waits, a reset happens, or the oldest host action is taken. -/

namespace Sys2Proof.Machine

theorem step_host {s : State} {a : HostAction} {rest : List Input} (h : s.inputs = .host a :: rest) :
    step s = hostStep a { s with inputs := rest } := by
  simp only [step, h]

theorem step_reset {s : State} {rest : List Input} (h : s.inputs = .reset :: rest) :
    step s = .next (resetBlock { s with inputs := rest }) := by
  simp only [step, h]

theorem step_issue {s : State} {c : BitVec 4} {i : Instr} {rest : List Input}
    (h : s.inputs = .host (.issue c) :: rest) (hc : decodeWord c = .ok i) :
    step s = exec i { s with inputs := rest } := by
  rw [step_host h]
  simp only [hostStep, issue, hc]

/-- The next state of a step comes from one of three things. -/
theorem step_next_cases {s t : State} (h : step s = .next t) :
    (s.inputs = [] ∧ t = s) ∨
    (∃ rest, s.inputs = .reset :: rest ∧ t = resetBlock { s with inputs := rest }) ∨
    (∃ a rest, s.inputs = .host a :: rest ∧ hostStep a { s with inputs := rest } = .next t) := by
  cases hi : s.inputs with
  | nil => left; simp only [step, hi] at h; cases h; exact ⟨rfl, rfl⟩
  | cons i rest =>
    cases i with
    | reset => right; left; rw [step_reset hi] at h; cases h; exact ⟨rest, rfl, rfl⟩
    | host a => right; right; rw [step_host hi] at h; exact ⟨a, rest, rfl, h⟩

/-- What one host action can do when it answers a next state. -/
theorem hostStep_next_cases {a : HostAction} {s t : State} (h : hostStep a s = .next t) :
    (∃ p q, a = .deliver p q ∧ p.length ≤ s.cfg.maxLen ∧
      t = { s with rx := s.rx.load p, rxlen := p.length, src := q }) ∨
    (∃ r v, a = .hostwr r v ∧ hostMayWrite r = true ∧ valueFits s.cfg r v = true ∧ t = writeReg r v s) ∨
    (∃ r, a = .hostrd r ∧ t = s.emit (.read r (readReg r s))) ∨
    (a = .txclr ∧ t = s.clearTx) ∨
    (∃ c i, a = .issue c ∧ decodeWord c = .ok i ∧ exec i s = .next t) ∨
    (∃ c e, a = .issue c ∧ decodeWord c = .error e ∧ t = s.setStatus 5) ∨
    (a = .send ∧ s.txvalid = true ∧ t = s.emit (.datagram s.txBytes s.dst)) := by
  cases a with
  | deliver p q =>
    left
    simp only [hostStep, deliver] at h
    split at h
    · rename_i hp; cases h; exact ⟨p, q, rfl, hp, rfl⟩
    · cases h
  | hostwr r v =>
    right; left
    simp only [hostStep, hostWrite] at h
    split at h
    · cases h
    · rename_i hw
      split at h
      · cases h
      · rename_i hf
        cases h
        exact ⟨r, v, rfl, by simpa using hw, by simpa using hf, rfl⟩
  | hostrd r =>
    right; right; left
    simp only [hostStep, hostRead] at h; cases h; exact ⟨r, rfl, rfl⟩
  | txclr =>
    right; right; right; left
    simp only [hostStep, txClear] at h; cases h; exact ⟨rfl, rfl⟩
  | issue c =>
    right; right; right; right
    simp only [hostStep, issue] at h
    split at h
    · rename_i i hi; left; exact ⟨c, i, rfl, hi, h⟩
    · rename_i e he; right; left; cases h; exact ⟨c, e, rfl, he, rfl⟩
  | send =>
    right; right; right; right; right; right
    simp only [hostStep, send] at h
    split at h
    · rename_i hv; cases h; exact ⟨rfl, hv, rfl⟩
    · cases h

end Sys2Proof.Machine
end

