-- ==== Sys2Proof/Tests/Slice0.lean ====
section
/-! SUPPORT. The model's own tests: words written out from R70, ill-formed terms, single steps whose expected results are the vectors of 95_test_vectors.md (cited by their ids), and for every statement with hypotheses a concrete state that meets them. -/

namespace Sys2Proof.Tests.Slice0

open Sys2Proof Sys2Proof.Machine

/-! ### Helpers -/

/-- The configuration the vectors assume, with DEFAULT_ADDR = d0 d1 d2 d3. -/
def cfg : Config :=
  { maxLen := 512, valw := 64, table := tableSrc, defaultAddr := ⟨0xD0, 0xD1, 0xD2, 0xD3⟩ }

/-- The same with another MAX_LEN. -/
def cfgOf (n : Nat) : Config := { cfg with maxLen := n }

/-- After reset, with VAL written. -/
def base : State := { State.resetWith cfg 0 with val := 0 }

/-- A datagram delivered by peer 7. -/
def rx (p : Octets) (s : State) : State := { s with rx := s.rx.load p, rxlen := p.length, src := 7 }

/-- NAME written by the host. -/
def nm (n : Octets) (s : State) : State := s.setName n

/-- TXLEN set, TX known below it. -/
def tx (n : Nat) (s : State) : State := { s with tx := s.tx.load (List.replicate n 0xEE), txlen := n }

/-- CUR set. -/
def cu (c : Nat) (s : State) : State := s.setCur c

/-- Another MAX_LEN. -/
def cap (n : Nat) (s : State) : State := { s with cfg := cfgOf n }

/-- One input to come. -/
def next (i : Input) (s : State) : State := { s with inputs := [i] }

/-- What `f` is in the next state, if there is one. -/
def look (r : Result) (f : State → α) : Option α :=
  match r with
  | .next t => some (f t)
  | .fault _ => none
  | .refused _ => none

theorem exists_of_look {r : Result} {f : State → α} {a : α} (h : look r f = some a) :
    ∃ t, r = .next t ∧ f t = a := by
  cases r with
  | next t => exact ⟨t, rfl, by simpa [look] using h⟩
  | fault f => simp [look] at h
  | refused f => simp [look] at h

/-- "a" -/
def nA : Octets := [0x61]
/-- "a..b" -/
def nBad : Octets := [0x61, 0x2E, 0x2E, 0x62]
/-- "example.com" -/
def nEx : Octets := [0x65, 0x78, 0x61, 0x6D, 0x70, 0x6C, 0x65, 0x2E, 0x63, 0x6F, 0x6D]
/-- The question of S7. -/
def qEx : Query := ⟨[[0x65, 0x78, 0x61, 0x6D, 0x70, 0x6C, 0x65], [0x63, 0x6F, 0x6D]], 1, 1⟩
/-- The label form of "example.com", V-B4. -/
def wEx : Octets := [0x07, 0x65, 0x78, 0x61, 0x6D, 0x70, 0x6C, 0x65, 0x03, 0x63, 0x6F, 0x6D, 0x00]
/-- The question of S7 on the wire. -/
def wqEx : Octets := wEx ++ [0x00, 0x01, 0x00, 0x01]
/-- The request of S7. -/
def reqEx : Octets := [0x12, 0x34, 0, 0, 0, 1, 0, 0, 0, 0, 0, 0] ++ wqEx
/-- The answer of S7. -/
def ansEx : Octets := wEx ++ [0x00, 0x01, 0x00, 0x01, 0x00, 0x00, 0x02, 0x58, 0x00, 0x04, 0xD0, 0xD1, 0xD2, 0xD3]
/-- The reply of S7. -/
def repEx : Octets := [0x12, 0x34, 0xA1, 0x01, 0, 1, 0, 1, 0, 0, 0, 0] ++ wqEx ++ ansEx
/-- The request of V-F9. -/
def reqF9 : Octets := [0, 1, 0, 0, 0, 2, 0, 0, 0, 0, 0, 0, 0x01, 0x61, 0x00, 0x00, 0x01, 0x00, 0x01]
/-- The request of V-F11. -/
def reqF11 : Octets := [0, 1, 0, 0, 0, 1, 0, 0, 0, 0, 0, 0, 0x01, 0x2E, 0x00, 0x00, 0x01, 0x00, 0x01]

/-! ### Decoding: words written out from the column "code" of R70 -/

theorem test_decode_primitive : decodeWord 0b0001#4 = .ok .pack16 ∧ decodeWord 0b0010#4 = .ok .pack32 := by decide
theorem test_decode_label : decodeWord 0b0011#4 = .ok .packname ∧ decodeWord 0b0100#4 = .ok .parsename := by decide
theorem test_decode_flags : decodeWord 0b0101#4 = .ok .flagsunpack ∧ decodeWord 0b0110#4 = .ok .flagspack := by decide
theorem test_decode_header : decodeWord 0b0111#4 = .ok .hdrunpack ∧ decodeWord 0b1000#4 = .ok .hdrpack := by decide
theorem test_decode_question : decodeWord 0b1001#4 = .ok .qunpack := by decide
theorem test_decode_answer : decodeWord 0b1010#4 = .ok .ansbuild := by decide
theorem test_decode_dispatcher : decodeWord 0b1011#4 = .ok .lookup ∧ decodeWord 0b1100#4 = .ok .respond := by decide
/-- R71: the four reserved codes. -/
theorem test_decode_reserved :
    decodeWord 0b0000#4 = .error (.reserved 0) ∧ decodeWord 0b1101#4 = .error (.reserved 13) ∧
    decodeWord 0b1110#4 = .error (.reserved 14) ∧ decodeWord 0b1111#4 = .error (.reserved 15) := by decide
/-- No octets, and an octet that is no 4-bit word. -/
theorem test_decode_no_word : decode [] = .error .noWord ∧ decode [0x11] = .error (.tooWide 0x11) := by decide
theorem test_decode_table_word : decodeTableWord 8 0xC = some .respond ∧ decodeTableWord 4 0x1 = some .pack16 ∧
    decodeTableWord 8 0xD = none := by decide

/-- The register numbers at the ends of the ranges of R31. -/
theorem test_register_numbers : regNumber .status = some 0 ∧ regNumber .val = some 6 ∧
    regNumber .ar = some 12 ∧ regNumber .rc = some 20 ∧ regNumber .addr = some 23 ∧
    regNumber .dst = some 25 ∧ regNumber .rx = none := by decide

/-! ### Ill-formed host actions are refused -/

theorem test_wf_deliver : HostAction.wellFormed (cfgOf 12) (.deliver (List.replicate 13 0) 0) = false := by decide
theorem test_wf_hostwr_forbidden : HostAction.wellFormed cfg (.hostwr .status (.word 0)) = false ∧
    HostAction.wellFormed cfg (.hostwr .rxlen (.word 0)) = false ∧
    HostAction.wellFormed cfg (.hostwr .namelen (.word 0)) = false := by decide
theorem test_wf_hostwr_too_wide : HostAction.wellFormed cfg (.hostwr .opc (.word 16)) = false ∧
    HostAction.wellFormed cfg (.hostwr .id (.word 65536)) = false ∧
    HostAction.wellFormed cfg (.hostwr .cur (.word 1024)) = false := by decide
theorem test_wf_hostwr_wrong_kind : HostAction.wellFormed cfg (.hostwr .id (.octets [1])) = false ∧
    HostAction.wellFormed cfg (.hostwr .name (.word 1)) = false := by decide
theorem test_wf_hostwr_addr : HostAction.wellFormed cfg (.hostwr .addr (.octets [1, 2, 3])) = false := by decide
theorem test_wf_hostwr_name : HostAction.wellFormed (cfgOf 12) (.hostwr .name (.octets (List.replicate 13 0))) = false := by decide

/-! ### One step each -/

/-- V-A6. -/
theorem test_pack16_masks : look (exec .pack16 { base with val := 0x12345 }) (fun t => (t.status, t.txBytes)) =
    some (0, [0x23, 0x45]) := by decide
/-- V-A13. -/
theorem test_pack16_overflow : look (exec .pack16 (cap 12 (tx 11 base))) (fun t => (t.status, t.txlen)) =
    some (4, 11) := by decide
/-- V-A10. -/
theorem test_pack32_order : look (exec .pack32 { base with val := 0xDEADBEEF }) (fun t => (t.status, t.txBytes)) =
    some (0, [0xDE, 0xAD, 0xBE, 0xEF]) := by decide
/-- V-A14: the exact fit. -/
theorem test_pack32_fits : look (exec .pack32 (cap 12 (tx 8 { base with val := 600 })))
    (fun t => (t.status, t.txlen, t.txBytes.drop 8)) = some (0, 12, [0x00, 0x00, 0x02, 0x58]) := by decide
/-- V-B3. -/
theorem test_packname_labels : look (exec .packname (nm [0x61, 0x2E, 0x62, 0x2E, 0x63] base)) (fun t => (t.status, t.txBytes)) =
    some (0, [0x01, 0x61, 0x01, 0x62, 0x01, 0x63, 0x00]) := by decide
/-- V-B9. -/
theorem test_packname_empty_label : look (exec .packname (nm nBad base)) (fun t => (t.status, t.txlen)) = some (3, 0) := by decide
/-- V-C14: decoding starts at CUR. -/
theorem test_parsename_cursor :
    look (exec .parsename { rx [0xFF, 0xFF, 0x01, 0x61, 0x00] base with cur := 2 }) (fun t => (t.status, t.nameBytes, t.cur)) =
      some (0, nA, 5) := by decide
/-- V-C8. -/
theorem test_parsename_pointer : look (exec .parsename (rx [0xC0, 0x0C] base)) (fun t => (t.status, t.namelen, t.cur)) =
    some (1, 0, 0) := by decide
/-- V-D11. -/
theorem test_flagsunpack : look (exec .flagsunpack (base.setHdr ⟨0, 0x5A5A, 0, 0, 0, 0⟩)) (fun t => (t.status, t.flags)) =
    some (0, ⟨0, 13, 0, 1, 0, 0, 5, 5⟩) := by decide
/-- V-D10. -/
theorem test_flagspack : look (exec .flagspack (base.setFlags ⟨1, 0, 0, 0, 0, 0, 0, 2⟩)) (fun t => (t.status, t.txBytes)) =
    some (0, [0x01, 0x20]) := by decide
/-- V-E2. -/
theorem test_hdrunpack : look (exec .hdrunpack (rx [0x01, 0x01, 0xE1, 0xFF, 0x00, 0x01, 0x00, 0x05, 0x00, 0x06, 0x00, 0x07] base))
    (fun t => (t.status, t.hdr, t.cur)) = some (0, ⟨0x0101, 0xFFE1, 1, 5, 6, 7⟩, 12) := by decide
/-- V-E6. -/
theorem test_hdrunpack_short : look (exec .hdrunpack (rx (List.replicate 11 0x01) base)) (fun t => (t.status, t.cur)) =
    some (1, 0) := by decide
/-- V-E4. -/
theorem test_hdrpack : look (exec .hdrpack
    { rx reqEx base with cur := 12, hdr := ⟨0x1234, 0, 1, 0, 0, 0⟩, flags := ⟨0, 5, 0, 0, 0, 0, 0, 0⟩ })
    (fun t => (t.status, t.txBytes)) = some (0, [0x12, 0x34, 0xAB, 0x01, 0, 1, 0, 0, 0, 0, 0, 0]) := by decide
/-- V-E5. -/
theorem test_hdrpack_range : look (exec .hdrpack { rx reqEx base with cur := 30 }) (fun t => (t.status, t.txlen)) =
    some (6, 0) := by decide
/-- V-Q3, the first question. -/
theorem test_qunpack : look (exec .qunpack (rx [0x01, 0x61, 0x00, 0x00, 0x1C, 0x00, 0xFF, 0x01, 0x62, 0x00, 0x00, 0x01, 0x00, 0x01] base))
    (fun t => (t.status, t.nameBytes, t.qtype, t.qclass, t.cur)) = some (0, nA, 28, 255, 7) := by decide
/-- V-Q4. -/
theorem test_qunpack_short : look (exec .qunpack (rx [0x01, 0x61, 0x00, 0x00, 0x01, 0x00] base))
    (fun t => (t.status, t.namelen, t.cur)) = some (1, 0, 0) := by decide
/-- V-G3. -/
theorem test_ansbuild : look (exec .ansbuild ((nm nA base).setAddr ⟨0xFF, 0xFF, 0xFF, 0xFF⟩)) (fun t => (t.status, t.txBytes)) =
    some (0, [0x01, 0x61, 0x00, 0x00, 0x01, 0x00, 0x01, 0x00, 0x00, 0x02, 0x58, 0x00, 0x04, 0xFF, 0xFF, 0xFF, 0xFF]) := by decide
/-- V-G4. -/
theorem test_ansbuild_bad : look (exec .ansbuild (nm nBad base)) (fun t => (t.status, t.txlen)) = some (3, 0) := by decide
/-- The LOOKUP line of section 2, a key. -/
theorem test_lookup_hit : look (exec .lookup (nm nameAftonbladet base)) (fun t => (t.status, t.addr)) =
    some (0, ⟨0x0D, 0x0D, 0x11, 0xD0⟩) := by decide
/-- The LOOKUP line of section 2, no key. -/
theorem test_lookup_miss : look (exec .lookup (nm [0x67, 0x6F, 0x6F, 0x67, 0x6C, 0x65, 0x2E, 0x73, 0x65] base)) (fun t => (t.status, t.addr)) =
    some (0, ⟨0xD0, 0xD1, 0xD2, 0xD3⟩) := by decide
/-- S7 and V-F1. -/
theorem test_respond :
    look (exec .respond (rx reqEx base)) (fun t => (t.status, t.txvalid, t.dst, t.txBytes)) = some (0, true, 7, repEx) ∧
    look (exec .respond (rx reqEx base)) (fun t => (t.cur, t.nameBytes, t.addr)) = some (29, nEx, ⟨0xD0, 0xD1, 0xD2, 0xD3⟩) := by
  decide +kernel
/-- V-F5. -/
theorem test_respond_opcode : look (exec .respond (rx ([0x12, 0x34, 2, 0, 0, 1, 0, 0, 0, 0, 0, 0] ++ wqEx) base))
    (fun t => (t.status, t.txvalid, t.txlen, t.flags.opc, t.cur, t.namelen)) = some (2, false, 0, 1, 12, 0) := by decide +kernel

/-- V-F15, as a step. -/
theorem test_reserved : look (step (next (.host (.issue 0xD)) base)) (fun t => (t.status, t.txlen, t.inputs)) = some (5, 0, []) := by decide
/-- R46 with a reply of two octets for peer 9. -/
theorem test_send : look (step (next (.host .send) { tx 2 base with txvalid := true, dst := 9 })) (fun t => t.outputs) =
    some [.datagram [0xEE, 0xEE] 9] := by decide
/-- The first instruction after reset is the one placed. -/
theorem test_first_instruction : look (step (State.reset.withFetchWord 8 0x7)) (fun t => (t.status, t.inputs)) = some (1, []) := by decide

/-! ### Witnesses: a concrete state that meets the hypotheses of each statement -/

theorem witness_DecodeOfEncodeIsTheCommand : Instr.wellFormed .respond = true ∧ decodeWord 0xC#4 = .ok .respond := by decide

theorem witness_StepRunsTheIssuedCommand :
    (next (.host (.issue 0xC#4)) base).inputs = .host (.issue 0xC#4) :: [] ∧ decodeWord 0xC#4 = .ok .respond := by decide

theorem witness_StepTakesTheOldestInput :
    (next (.host .txclr) base).inputs = .host .txclr :: [] ∧ (next .reset base).inputs = .reset :: [] := by decide

theorem witness_ReservedCodeChangesOnlyStatus : ∀ c ∈ [0x0#4, 0xD#4, 0xE#4, 0xF#4],
    c = 0x0#4 ∨ c = 0xD#4 ∨ c = 0xE#4 ∨ c = 0xF#4 := by decide

theorem witness_BlockWaitsWithoutInput : base.inputs = [] := by decide

theorem witness_Pack16AppendsLowSixteenBits : (tx 510 base).txlen + 2 ≤ (tx 510 base).cfg.maxLen ∧
    (tx 511 base).cfg.maxLen < (tx 511 base).txlen + 2 := by decide

theorem witness_Pack32AppendsLowThirtyTwoBits : (tx 508 base).txlen + 4 ≤ (tx 508 base).cfg.maxLen ∧
    (tx 509 base).cfg.maxLen < (tx 509 base).txlen + 4 := by decide

/-- The exact fit, one octet too many (V-B13), an empty label, a label of 64; and the empty name. -/
theorem witness_PacknameAppendsTheLabelForm :
    (dotFree [nA] ∧ (nm nA (tx 509 base)).nameBytes = joinDots [nA] ∧ labelsOk [nA] ∧
      (nm nA (tx 509 base)).txlen + (labelForm [nA]).length ≤ (nm nA (tx 509 base)).cfg.maxLen) ∧
    ((nm nA (tx 510 base)).nameBytes = joinDots [nA] ∧
      (nm nA (tx 510 base)).cfg.maxLen < (nm nA (tx 510 base)).txlen + (labelForm [nA]).length) ∧
    (dotFree [nA, [], [0x62]] ∧ (nm nBad base).nameBytes = joinDots [nA, [], [0x62]] ∧
      ¬ labelsOk [nA, [], [0x62]] ∧ (nm nBad base).nameBytes ≠ []) ∧
    (dotFree [List.replicate 64 0x78] ∧ (nm (List.replicate 64 0x78) base).nameBytes = joinDots [List.replicate 64 0x78] ∧
      ¬ labelsOk [List.replicate 64 0x78]) ∧
    (dotFree [] ∧ base.nameBytes = joinDots [] ∧ labelsOk []) := by decide +kernel

/-- V-C2, and V-C5 with no name. -/
theorem witness_DecoderAcceptsExactlyTheNameGrammar :
    (3 ≤ ([0x01, 0x61, 0x00] : Octets).length ∧ nameAt [0x01, 0x61, 0x00] 0 3 [nA] 3) ∧
    (∀ ls next, ¬ nameAt [0x01, 0x61] 0 2 ls next) :=
  ⟨by decide, (parseName_error_iff (by decide)).mp (by decide)⟩

/-- V-C2 and V-C1. -/
theorem witness_DecodedNameSizes :
    (3 ≤ ([0x01, 0x61, 0x00] : Octets).length ∧ parseName [0x01, 0x61, 0x00] 0 3 = .ok (nA, 3)) ∧
    (1 ≤ ([0x00] : Octets).length ∧ parseName [0x00] 0 1 = .ok ([], 1)) := by decide

theorem witness_DecodingUndoesEncodingOfNames : packName nA = .ok [0x01, 0x61, 0x00] := by decide

/-- V-C2; V-C10 and V-C11, where a label contains DOT. -/
theorem witness_EncodingUndoesDecodingWithoutDots :
    (nameAt [0x01, 0x61, 0x00] 0 3 [nA] 3 ∧ dotFree [nA]) ∧
    (nameAt [0x01, 0x2E, 0x00] 0 3 [[0x2E]] 3 ∧ ¬ dotFree [[0x2E]]) ∧
    (nameAt [0x03, 0x61, 0x2E, 0x62, 0x00] 0 5 [[0x61, 0x2E, 0x62]] 5 ∧ ¬ dotFree [[0x61, 0x2E, 0x62]]) := by decide

/-- V-C2 and V-C13. -/
theorem witness_ParsenameDecodesTheNameAtTheCursor :
    nameAt (rx [0x01, 0x61, 0x00] base).rxBytes (rx [0x01, 0x61, 0x00] base).cur (rx [0x01, 0x61, 0x00] base).rxlen [nA] 3 ∧
    (∀ ls next, ¬ nameAt ({ rx [0x01, 0x61, 0x00] base with cur := 3 } : State).rxBytes 3 3 ls next) :=
  ⟨by decide, (parseName_error_iff (by decide)).mp (by decide)⟩

/-- V-C13, V-C7 (its first octet), V-C6. -/
theorem witness_MalformedNameAtTheCursorFaults :
    ({ rx [0x01, 0x61, 0x00] base with cur := 3 } : State).rxlen ≤ ({ rx [0x01, 0x61, 0x00] base with cur := 3 } : State).cur ∧
    ((rx [0x40] base).cur < (rx [0x40] base).rxlen ∧ 64 ≤ ((rx [0x40] base).rxOctet (rx [0x40] base).cur).toNat) ∧
    ((rx [0x03, 0x61] base).cur < (rx [0x03, 0x61] base).rxlen ∧
      1 ≤ ((rx [0x03, 0x61] base).rxOctet (rx [0x03, 0x61] base).cur).toNat ∧
      (rx [0x03, 0x61] base).rxlen <
        (rx [0x03, 0x61] base).cur + 1 + ((rx [0x03, 0x61] base).rxOctet (rx [0x03, 0x61] base).cur).toNat) := by decide

theorem witness_FlagspackAppendsTheTwoOctets : (tx 510 base).txlen + 2 ≤ (tx 510 base).cfg.maxLen ∧
    (tx 511 base).cfg.maxLen < (tx 511 base).txlen + 2 := by decide

/-- V-E1 and V-E6: 12 octets and 11. -/
theorem witness_HdrunpackReadsTheHeader :
    12 ≤ (rx (reqEx.take 12) base).rxlen ∧ (rx (reqEx.take 11) base).rxlen < 12 := by decide

/-- V-E5: the cursor at 12 and at RXLEN, with the exact fit; one octet too many; and the cursor outside. -/
theorem witness_HdrpackAppendsTheReplyHeader :
    (∀ c ∈ [12, 29], ∀ s ∈ [cu c (tx (512 - c) (rx reqEx base))],
      12 ≤ s.cur ∧ s.cur ≤ s.rxlen ∧ s.txlen + s.cur ≤ s.cfg.maxLen) ∧
    (∀ c ∈ [12, 29], ∀ s ∈ [cu c (tx (513 - c) (rx reqEx base))],
      12 ≤ s.cur ∧ s.cur ≤ s.rxlen ∧ s.cfg.maxLen < s.txlen + s.cur) ∧
    (∀ c ∈ [11, 30], (cu c (rx reqEx base)).cur < 12 ∨ (rx reqEx base).rxlen < (cu c (rx reqEx base)).cur) := by
  decide +kernel

/-- V-Q1, where the question ends at RXLEN; and V-Q4. -/
theorem witness_QunpackDecodesTheQuestionAtTheCursor :
    (nameAt ({ rx reqEx base with cur := 12 } : State).rxBytes 12 29 qEx.labels 25 ∧ 25 + 4 ≤ (rx reqEx base).rxlen) ∧
    noQueryAt (rx [0x01, 0x61, 0x00, 0x00, 0x01, 0x00] base).rxBytes 0 6 :=
  ⟨by decide +kernel, ((qUnpack_error_iff (f := .malformedMessage) (by decide)).mp (by decide)).2⟩

/-- The exact fit, one octet too many, an empty label. -/
theorem witness_AnsbuildAppendsTheAddressRecord :
    (dotFree [nA] ∧ (nm nA (tx 495 base)).nameBytes = joinDots [nA] ∧ labelsOk [nA] ∧
      (nm nA (tx 495 base)).txlen + ((labelForm [nA]).length + 14) ≤ (nm nA (tx 495 base)).cfg.maxLen) ∧
    ((nm nA (tx 496 base)).nameBytes = joinDots [nA] ∧
      (nm nA (tx 496 base)).cfg.maxLen < (nm nA (tx 496 base)).txlen + ((labelForm [nA]).length + 14)) ∧
    (dotFree [nA, [], [0x62]] ∧ (nm nBad base).nameBytes = joinDots [nA, [], [0x62]] ∧
      ¬ labelsOk [nA, [], [0x62]] ∧ (nm nBad base).nameBytes ≠ []) := by decide +kernel

theorem witness_LookupReadsTheTable :
    ((base.cfg.table.map Prod.fst).Nodup ∧ ((nm nameGoogle base).nameBytes, (⟨192, 168, 0, 1⟩ : Addr)) ∈ base.cfg.table) ∧
    (nm nA base).nameBytes ∉ base.cfg.table.map Prod.fst := by decide

theorem witness_SourceTableAddresses : cfg.table = tableSrc := by decide

/-- S7 with MAX_LEN = 56, where the reply just fits (V-F14). -/
theorem witness_RespondAnswersEveryQuestion : ∀ s ∈ [cap 56 (rx reqEx base)],
    12 ≤ s.rxlen ∧ (s.rxOctet 2).toNat / 2 % 16 = 0 ∧
    256 * (s.rxOctet 4).toNat + (s.rxOctet 5).toNat = [qEx].length ∧
    queriesAt s.rxBytes 12 s.rxlen [qEx] ∧ answersTo s.cfg [qEx] = some ansEx ∧
    12 + (queriesWire [qEx]).length + ansEx.length ≤ s.cfg.maxLen := by decide +kernel

/-- V-F5, and opcode 15. -/
theorem witness_RespondDropsOtherOpcodes :
    (12 ≤ (rx [0, 0, 0x02, 0, 0, 0, 0, 0, 0, 0, 0, 0] base).rxlen ∧
      ((rx [0, 0, 0x02, 0, 0, 0, 0, 0, 0, 0, 0, 0] base).rxOctet 2).toNat / 2 % 16 ≠ 0) ∧
    ((rx [0, 0, 0x1E, 0, 0, 0, 0, 0, 0, 0, 0, 0] base).rxOctet 2).toNat / 2 % 16 ≠ 0 := by decide

/-- V-F6. -/
theorem witness_RespondDropsShortDatagrams : (rx (reqEx.take 11) base).rxlen < 12 := by decide

/-- V-F9, after one question; V-F7, at the first. -/
theorem witness_RespondDropsAtTheFirstBadQuestion :
    (12 ≤ (rx reqF9 base).rxlen ∧ ((rx reqF9 base).rxOctet 2).toNat / 2 % 16 = 0 ∧
      [(⟨[nA], 1, 1⟩ : Query)].length < 256 * ((rx reqF9 base).rxOctet 4).toNat + ((rx reqF9 base).rxOctet 5).toNat ∧
      queriesAt (rx reqF9 base).rxBytes 12 (rx reqF9 base).rxlen [⟨[nA], 1, 1⟩] ∧
      (answersTo base.cfg [⟨[nA], 1, 1⟩]).isSome = true) ∧
    noQueryAt (rx reqF9 base).rxBytes (12 + (queriesWire [⟨[nA], 1, 1⟩]).length) (rx reqF9 base).rxlen ∧
    noQueryAt (rx (reqEx.take 14) base).rxBytes 12 (rx (reqEx.take 14) base).rxlen :=
  ⟨by decide +kernel, ((qUnpack_error_iff (f := .malformedMessage) (by decide +kernel)).mp (by decide +kernel)).2,
    ((qUnpack_error_iff (f := .malformedMessage) (by decide +kernel)).mp (by decide +kernel)).2⟩

/-- V-F11. -/
theorem witness_RespondDropsUnencodableNames :
    12 ≤ (rx reqF11 base).rxlen ∧ ((rx reqF11 base).rxOctet 2).toNat / 2 % 16 = 0 ∧
    ([] : List Query).length < 256 * ((rx reqF11 base).rxOctet 4).toNat + ((rx reqF11 base).rxOctet 5).toNat ∧
    queriesAt (rx reqF11 base).rxBytes 12 (rx reqF11 base).rxlen ([] ++ [⟨[[0x2E]], 1, 1⟩]) ∧
    answersTo base.cfg [] = some [] ∧ packName (joinDots [[0x2E]]) = .error .nameEncode := by decide +kernel

/-- V-F14: the reply of 56 octets with MAX_LEN = 55. -/
theorem witness_RespondDropsOversizeReplies : ∀ s ∈ [cap 55 (rx reqEx base)],
    12 ≤ s.rxlen ∧ (s.rxOctet 2).toNat / 2 % 16 = 0 ∧
    256 * (s.rxOctet 4).toNat + (s.rxOctet 5).toNat = [qEx].length ∧
    queriesAt s.rxBytes 12 s.rxlen [qEx] ∧ answersTo s.cfg [qEx] = some ansEx ∧
    s.cfg.maxLen < 12 + (queriesWire [qEx]).length + ansEx.length := by decide +kernel

/-- V-F4 with MAX_LEN = 12, where the reply just fits. -/
theorem witness_RespondToZeroQuestions : ∀ s ∈ [cap 12 (rx [0x00, 0x42, 0, 0, 0, 0, 0, 0, 0, 0, 0, 0] base)],
    12 ≤ s.cfg.maxLen ∧ 12 ≤ s.rxlen ∧ (s.rxOctet 2).toNat / 2 % 16 = 0 ∧
    s.rxOctet 4 = 0 ∧ s.rxOctet 5 = 0 := by decide

/-- Two states that differ in what the datagram does not decide. -/
theorem witness_RespondDependsOnlyOnTheDatagram :
    (rx reqEx base).cfg = (nm nA (rx reqEx (tx 3 base))).cfg ∧
    (rx reqEx base).rxBytes = (nm nA (rx reqEx (tx 3 base))).rxBytes ∧ rx reqEx base ≠ nm nA (rx reqEx (tx 3 base)) :=
  ⟨rfl, by decide +kernel, fun h => absurd (congrArg State.txlen h) (by decide)⟩

/-- S7; and S7 with all flags but the opcode set, AN, NS and AR not 0, and three octets after it. -/
theorem witness_RespondIgnoresWhatItDoesNotExamine :
    ∀ s' ∈ [rx ([0x12, 0x34, 0xE1, 0xFF, 0, 1, 0, 5, 0, 6, 0, 7] ++ wqEx ++ [1, 2, 3]) base],
    (rx reqEx base).cfg = s'.cfg ∧
    ∃ t, exec .respond (rx reqEx base) = .next t ∧ t.status = 0 ∧ t.cur ≤ s'.rxlen ∧
      (s'.rxOctet 2).toNat / 2 % 16 = 0 ∧
      ∀ a, a < t.cur → a = 0 ∨ a = 1 ∨ a = 4 ∨ a = 5 ∨ 12 ≤ a → (rx reqEx base).rxOctet a = s'.rxOctet a := by
  intro s' hs
  obtain ⟨t, h, hf⟩ := exists_of_look (show look (exec .respond (rx reqEx base)) (fun t => (t.status, t.cur)) = some (0, 29) by decide +kernel)
  obtain ⟨h0, hc⟩ := Prod.mk.injEq .. ▸ hf
  obtain rfl := List.mem_singleton.mp hs
  refine ⟨rfl, t, h, h0, ?_, by decide +kernel, ?_⟩
  · rw [hc]; decide
  · rw [hc]; decide +kernel

/-- S7, with the leaf commands for its one question to come. -/
theorem witness_LeafCommandsBuildTheSameReply :
    ({ rx reqEx base with inputs := leafActions 1 } : State).Inv ∧
    ∃ t, exec .respond { rx reqEx base with inputs := leafActions 1 } = .next t ∧ t.status = 0 ∧
      ({ rx reqEx base with inputs := leafActions 1 } : State).inputs = leafActions t.hdr.qd.toNat ++ [] := by
  obtain ⟨t, h, hf⟩ := exists_of_look (show look (exec .respond { rx reqEx base with inputs := leafActions 1 })
    (fun t => (t.status, t.hdr.qd)) = some (0, 1) by decide +kernel)
  obtain ⟨h0, hq⟩ := Prod.mk.injEq .. ▸ hf
  exact ⟨by decide +kernel, t, h, h0, by rw [hq]; decide⟩

/-- V-A13. -/
theorem witness_FaultingLeafChangesOnlyStatus :
    ∃ t, exec .pack16 (tx 511 base) = .next t ∧ t.status ≠ 0 := by
  obtain ⟨t, h, hf⟩ := exists_of_look (show look (exec .pack16 (tx 511 base)) (fun t => t.status) = some 4 by decide +kernel)
  exact ⟨t, h, by rw [hf]; decide⟩

theorem witness_CommandsLeaveHostStateAlone : ∃ t, exec .respond (rx reqEx base) = .next t := by
  obtain ⟨t, h, _⟩ := exists_of_look (show look (exec .respond (rx reqEx base)) (fun t => t.status) = some 0 by decide +kernel)
  exact ⟨t, h⟩

/-- For each register a command that changes it. -/
theorem witness_OnlyListedCommandsWriteARegister :
    look (exec .respond (rx reqEx base)) (fun t => (decide (t.cur ≠ base.cur), decide (t.txlen ≠ base.txlen),
      decide (t.txvalid ≠ base.txvalid), decide (t.namelen ≠ base.namelen))) = some (true, true, true, true) ∧
    look (exec .hdrunpack ((rx reqEx base).setHdr ⟨0, 0, 0, 0, 0, 0⟩)) (fun t => decide (t.hdr ≠ ⟨0, 0, 0, 0, 0, 0⟩)) = some true ∧
    look (exec .flagsunpack ((base.setHdr ⟨0, 0xFFFF, 0, 0, 0, 0⟩).setFlags ⟨0, 0, 0, 0, 0, 0, 0, 0⟩))
      (fun t => decide (t.flags ≠ ⟨0, 0, 0, 0, 0, 0, 0, 0⟩)) = some true ∧
    look (exec .qunpack ((rx [0, 0, 1, 0, 1] base).setQuery 0 0)) (fun t => decide (t.qtype ≠ 0)) = some true ∧
    look (exec .lookup ((nm nameGoogle base).setAddr ⟨0, 0, 0, 0⟩)) (fun t => decide (t.addr ≠ ⟨0, 0, 0, 0⟩)) = some true := by
  decide +kernel

/-- A command of each clause that ends with STATUS 0. -/
theorem witness_CursorMovesForwardWithinTheDatagram :
    look (exec .parsename (rx [0x01, 0x61, 0x00] base)) (fun t => t.status) = some 0 ∧
    look (exec .qunpack (rx [0, 0, 1, 0, 1] base)) (fun t => t.status) = some 0 ∧
    look (exec .hdrunpack (rx reqEx base)) (fun t => t.status) = some 0 ∧
    look (exec .respond (rx reqEx base)) (fun t => t.status) = some 0 := by decide +kernel

/-- A payload of exactly MAX_LEN octets. -/
theorem witness_DeliverLoadsTheDatagram : (List.replicate 12 (0 : Byte)).length ≤ (cap 12 base).cfg.maxLen := by decide

/-- A number at its greatest value, CUR above MAX_LEN, ADDR, and a NAME of MAX_LEN octets. -/
theorem witness_HostWriteWritesOneRegister : ∀ rv ∈ [(Reg.an, RegValue.word 65535), (.cur, .word 15), (.addr, .octets [1, 2, 3, 4]),
      (.name, .octets (List.replicate 12 0x61))],
    hostMayWrite rv.1 = true ∧ valueFits (cap 12 base).cfg rv.1 rv.2 = true := by decide

/-- TXLEN up to MAX_LEN. -/
theorem witness_HostReadChangesNothing : (tx 512 base).txlen ≤ (tx 512 base).cfg.maxLen := by decide

theorem witness_SendTransmitsTheReply :
    ({ base with txvalid := true } : State).txvalid = true ∧ base.txvalid = false := by decide

/-- One action of each ill-formed kind, and a well-formed one. -/
theorem witness_IllFormedHostActionsStop :
    (∀ a ∈ [HostAction.deliver (List.replicate 13 0) 7, .hostwr .status (.word 0), .hostwr .id (.word 65536)],
      a ≠ .send ∧ a.wellFormed (cap 12 base).cfg = false) ∧
    HostAction.txclr ≠ .send ∧ HostAction.txclr.wellFormed (cap 12 base).cfg = true := by decide

theorem witness_ResetClearsTheSixRegisters : (next .reset (tx 2 base)).inputs = .reset :: [] := by decide

theorem witness_CursorWidthIsLeast : cfg.maxLen < 2 ^ 10 := by decide

/-- The least parameters R6 and R7 allow, and those of the vectors. -/
theorem witness_ResetMeetsTheInvariant : ({ cfg with maxLen := 12, valw := 33 } : Config).wf ∧ cfg.wf := by decide

theorem witness_StepKeepsTheInvariant : (next (.host .txclr) (rx reqEx (tx 2 base))).Inv ∧
    ∃ t, step (next (.host .txclr) (rx reqEx (tx 2 base))) = .next t :=
  ⟨by decide +kernel, _, rfl⟩

theorem witness_ConfigurationNeverChanges : ∃ t, step (next .reset base) = .next t := ⟨_, rfl⟩

/-- A reply owed, and a SEND to come. -/
theorem witness_OwedReplyIsSentUnchanged :
    (next (.host .send) { tx 12 base with txvalid := true }).inputs = .host .send :: [] ∧
    dutyAllows ⟨true, true, false⟩ (next (.host .send) { tx 12 base with txvalid := true }) (.host .send) = true ∧
    (∃ t, step (next (.host .send) { tx 12 base with txvalid := true }) = .next t) ∧ Input.host .send ≠ .reset :=
  ⟨rfl, rfl, ⟨_, rfl⟩, by decide⟩

theorem witness_DutifulHostIsNeverStopped :
    (next (.host .send) { tx 12 base with txvalid := true }).Inv ∧
    (next (.host .send) { tx 12 base with txvalid := true }).txvalid = true ∧
    (next (.host .send) { tx 12 base with txvalid := true }).inputs = .host .send :: [] ∧
    dutyAllows ⟨true, true, false⟩ (next (.host .send) { tx 12 base with txvalid := true }) (.host .send) = true := by decide +kernel

end Sys2Proof.Tests.Slice0
end

section
/-! The addresses of the source's table (R8, R170): what `lookupAddr` answers for a key of the table and for a name that is none. -/

namespace Sys2Proof.Machine

/-- R170 for a key: a pair of the table decides, since a map has each key once (R8). -/
theorem lookupAddr_of_mem {c : Config} {n : Octets} {a : Addr}
    (hn : (c.table.map Prod.fst).Nodup) (h : (n, a) ∈ c.table) : lookupAddr c n = a := by
  simp only [lookupAddr, tableFind_mem hn h, Option.getD_some]

/-- R170 for a name that is no key. -/
theorem lookupAddr_of_not_key {c : Config} {n : Octets} (h : n ∉ c.table.map Prod.fst) :
    lookupAddr c n = c.defaultAddr := by
  have hfind : tableFind c.table n = none :=
    tableFind_none fun a ha => h (List.mem_map_of_mem ha)
  simp only [lookupAddr, hfind, Option.getD_none]

theorem tableSrc_keys_nodup : (tableSrc.map Prod.fst).Nodup := by decide

/-- Settles O26: the two names are keys of the source's table, the upper-case name and the name with a trailing DOT are not. -/
theorem sourceTableAddresses : Obligations.SourceTableAddresses := by
  intro c hc
  have hnodup : (c.table.map Prod.fst).Nodup := hc ▸ tableSrc_keys_nodup
  refine ⟨lookupAddr_of_mem hnodup ?_, lookupAddr_of_mem hnodup ?_,
    lookupAddr_of_not_key ?_, lookupAddr_of_not_key ?_⟩ <;> rw [hc]
  · exact List.mem_cons_self
  · exact List.mem_cons_of_mem _ List.mem_cons_self
  · decide
  · decide

end Sys2Proof.Machine
end

section
/-! The invariant of the machine (R35, R50, U16): one rule per update of the state, then every command, every host action, reset, and a step. -/

namespace Sys2Proof.Machine

/-! ### One rule per update -/

theorem setStatus_inv {s : State} {c : BitVec 3} (h : s.Inv) (hc : c ≠ 7) : (s.setStatus c).Inv := by
  obtain ⟨hcfg, -, hrest⟩ := h
  exact ⟨hcfg, hc, hrest⟩

theorem setCur_inv {s : State} {o : Nat} (h : s.Inv) (ho : o < 2 ^ s.cfg.lenw) : (s.setCur o).Inv := by
  obtain ⟨hcfg, hst, -, hrest⟩ := h
  exact ⟨hcfg, hst, ho, hrest⟩

theorem setVal_inv {s : State} {n : Nat} (h : s.Inv) (hn : n < 2 ^ s.cfg.valw) :
    State.Inv { s with val := n } := by
  obtain ⟨hcfg, hst, hcur, -, hrest⟩ := h
  exact ⟨hcfg, hst, hcur, hn, hrest⟩

theorem setName_inv {s : State} {n : Octets} (h : s.Inv) (hn : n.length ≤ s.cfg.maxLen) :
    (s.setName n).Inv := by
  obtain ⟨hcfg, hst, hcur, hval, hrx, htx, -⟩ := h
  exact ⟨hcfg, hst, hcur, hval, hrx, htx, load_ok s.name hn⟩

/-- A store into TX that begins at or below TXLEN and ends within the capacity (R57). -/
theorem storeTx_inv {s : State} {a : Nat} {b : Octets} (h : s.Inv) (ha : a ≤ s.txlen)
    (hb : a + b.length ≤ s.cfg.maxLen) : (s.storeTx a b).Inv := by
  obtain ⟨hcfg, hst, hcur, hval, hrx, htx, hname⟩ := h
  exact ⟨hcfg, hst, hcur, hval, hrx, store_ok htx ha hb, hname⟩

theorem clearTx_inv {s : State} (h : s.Inv) : s.clearTx.Inv := by
  obtain ⟨hcfg, hst, hcur, hval, hrx, htx, hname⟩ := h
  exact ⟨hcfg, hst, hcur, hval, hrx, touch_ok htx, hname⟩

/-- The octets of TX may be forgotten once TXLEN is 0 (R207). -/
theorem forgetTx_inv {s : State} (h : s.Inv) (h0 : s.txlen = 0) : s.forgetTx.Inv := by
  obtain ⟨hcfg, hst, hcur, hval, hrx, -, hname⟩ := h
  refine ⟨hcfg, hst, hcur, hval, hrx, ?_, hname⟩
  rw [State.forgetTx_txlen, h0]
  exact forget_ok s.tx s.cfg.maxLen

/-- One question taken up: CUR at its end, NAME its name (R151, R173). -/
theorem setQuestion_inv {s : State} {q : Question} (h : s.Inv) (hname : q.name.length ≤ s.cfg.maxLen)
    (hnext : q.next ≤ s.cfg.maxLen) : (s.setQuestion q).Inv := by
  have hn := setName_inv h hname
  exact setCur_inv (s := (s.setName q.name).setQuery q.qtype q.qclass) hn (lt_two_pow_lenw hnext)

theorem resetWith_inv {c : Config} (k : Nat) (hc : c.wf) : (State.resetWith c k).Inv :=
  ⟨hc, by show (0 : BitVec 3) ≠ 7; decide, Nat.two_pow_pos _, Nat.mod_lt _ (Nat.two_pow_pos _),
    empty_ok 0 _, empty_ok 0 _, empty_ok 0 _⟩

theorem resetBlock_inv {s : State} (hc : s.cfg.wf) : (resetBlock s).Inv := by
  obtain ⟨hcfg, hst, hcur, hval, -⟩ := resetWith_inv (s.resets + 1) hc
  exact ⟨hcfg, hst, hcur, hval, forget_ok s.rx _, forget_ok s.tx _, forget_ok s.name _⟩

/-! ### Every command -/

theorem State.Inv.rxlen_le {s : State} (h : s.Inv) : s.rxlen ≤ s.cfg.maxLen := by
  obtain ⟨-, -, -, -, ⟨-, -, hle, -⟩, -⟩ := h
  exact hle

/-- A question on the wire within the capacity has a name and an end within the capacity (R114). -/
theorem setUnpacked_inv {s : State} {q : Query} (h : s.Inv)
    (hfit : s.cur + (queryWire q).length ≤ s.rxlen) : (s.setQuestion (unpacked q s.cur)).Inv := by
  have hrx := h.rxlen_le
  have hname := joinDots_length_lt q.labels
  rw [queryWire_length] at hfit
  refine setQuestion_inv h ?_ ?_
  · show (joinDots q.labels).length ≤ s.cfg.maxLen
    omega
  · show s.cur + (queryWire q).length ≤ s.cfg.maxLen
    rw [queryWire_length]; omega

/-- The question loop over questions that stand in the datagram. -/
theorem loopState_inv {qs : List Query} {s : State} (h : s.Inv)
    (hq : queriesAt s.rxBytes s.cur s.rxlen qs) : (loopState s qs).Inv := by
  induction qs generalizing s with
  | nil => exact h
  | cons q qs ih =>
    obtain ⟨⟨-, hfit, -⟩, hqs⟩ := (queriesAt_cons _ _ _ _ _).mp hq
    have hturn : (s.setQuestion (unpacked q s.cur)).Inv := setUnpacked_inv h hfit
    exact ih (s := loopTurn s q) hturn hqs

theorem respondStart_inv {s : State} (h : s.Inv) : (respondStart s).Inv := by
  have h12 : hdrLen ≤ s.cfg.maxLen := h.1.1
  have hclear := clearTx_inv h
  exact setCur_inv (s := (s.clearTx.setTxvalid false).setHdr (hdrUnpack s.rxHead)) hclear
    (lt_two_pow_lenw h12)

theorem appendsOrFaults_inv {s t : State} (h : s.Inv) (ht : appendsOrFaults s t) : t.Inv := by
  rcases ht with ⟨f, rfl⟩ | ⟨b, hfit, rfl⟩
  · exact setStatus_inv h (code_ne_seven f)
  · exact setStatus_inv (storeTx_inv h le_rfl hfit) (by decide)

theorem exec_respond_inv {s t : State} (h : s.Inv) (ht : exec .respond s = .next t) : t.Inv := by
  rcases exec_respond_cases ht with
    ⟨f, u, -, rfl, ⟨rfl, -⟩ | ⟨-, qs, hq, rfl, -⟩⟩ | ⟨qs, ans, -, -, -, hq, -, hfit, rfl⟩
  · have hclear : s.clearTx.Inv := clearTx_inv h
    exact setStatus_inv (forgetTx_inv (s := s.clearTx.setTxvalid false) hclear rfl) (code_ne_seven f)
  · have hloop : (loopState (respondStart s) qs).Inv := loopState_inv (respondStart_inv h) hq
    exact setStatus_inv (forgetTx_inv hloop (loopState_txlen _ _)) (code_ne_seven f)
  · have hloop : (loopState (respondStart s) qs).Inv := loopState_inv (respondStart_inv h) hq
    have hreply : (replied (loopState (respondStart s) qs) (replyHead s qs ++ ans)).Inv := by
      refine storeTx_inv hloop (Nat.zero_le _) ?_
      rw [loopState_cfg, respondStart_cfg, List.length_append, replyHead_length]
      omega
    exact setStatus_inv hreply (by decide)

theorem exec_parsename_inv {s t : State} (h : s.Inv) (ht : exec .parsename s = .next t) : t.Inv := by
  rcases exec_parsename_cases ht with rfl | ⟨n, next, hp, rfl⟩
  · exact setStatus_inv h (by decide)
  · obtain ⟨-, hnext, hlen⟩ := parseName_sizes (by simp) hp
    have hrx := h.rxlen_le
    have hname : (s.setName n).Inv := setName_inv h (by omega)
    exact setStatus_inv (setCur_inv hname (lt_two_pow_lenw (hnext.trans hrx))) (by decide)

theorem exec_qunpack_inv {s t : State} (h : s.Inv) (ht : exec .qunpack s = .next t) : t.Inv := by
  rcases exec_qunpack_cases ht with rfl | ⟨r, hr, rfl⟩
  · exact setStatus_inv h (by decide)
  · obtain ⟨q, -, hfit, -, rfl⟩ := wire_of_qUnpack (by simp) hr
    exact setStatus_inv (setUnpacked_inv h hfit) (by decide)

theorem exec_hdrunpack_inv {s t : State} (h : s.Inv) (ht : exec .hdrunpack s = .next t) : t.Inv := by
  rcases exec_hdrunpack_cases ht with ⟨-, rfl⟩ | ⟨h12, rfl⟩
  · exact setStatus_inv h (by decide)
  · have hcur : 12 < 2 ^ s.cfg.lenw := lt_two_pow_lenw (h12.trans h.rxlen_le)
    exact setStatus_inv (setCur_inv (s := s.setHdr (hdrUnpack s.rxHead)) h hcur) (by decide)

theorem exec_inv {i : Instr} {s t : State} (h : s.Inv) (ht : exec i s = .next t) : t.Inv := by
  cases i with
  | pack16 => exact appendsOrFaults_inv h (exec_pack16_cases ht)
  | pack32 => exact appendsOrFaults_inv h (exec_pack32_cases ht)
  | packname => exact appendsOrFaults_inv h (exec_packname_cases ht)
  | flagspack => exact appendsOrFaults_inv h (exec_flagspack_cases ht)
  | hdrpack => exact appendsOrFaults_inv h (exec_hdrpack_cases ht)
  | ansbuild => exact appendsOrFaults_inv h (exec_ansbuild_cases ht)
  | parsename => exact exec_parsename_inv h ht
  | qunpack => exact exec_qunpack_inv h ht
  | hdrunpack => exact exec_hdrunpack_inv h ht
  | respond => exact exec_respond_inv h ht
  | flagsunpack =>
    cases ht
    exact setStatus_inv (s := s.setFlags _) h (by decide)
  | lookup =>
    cases ht
    exact setStatus_inv (s := s.setAddr _) h (by decide)

/-! ### Every host action, and a step -/

/-- Of a register that holds a number only a number of its width fits (R31, R42). -/
theorem valueFits_number {c : Config} {r : Reg} {v : RegValue} {w : Nat} (hw : regWidth c r = some w)
    (hf : valueFits c r v = true) : ∃ n, v = .word n ∧ n < 2 ^ w := by
  cases v with
  | word n =>
    cases r <;> cases hw <;> exact ⟨n, rfl, of_decide_eq_true hf⟩
  | octets o => cases r <;> cases hw <;> cases hf
  | peer p => cases r <;> cases hw <;> cases hf

theorem valueFits_name {c : Config} {v : RegValue} (hf : valueFits c .name v = true) :
    ∃ n, v = .octets n ∧ n.length ≤ c.maxLen := by
  cases v with
  | octets n => exact ⟨n, rfl, of_decide_eq_true hf⟩
  | word n => cases hf
  | peer p => cases hf

/-- A HOSTWR with a value that fits: CUR, VAL and NAME are bounded by their widths, the invariant does not speak of the other registers it writes. -/
theorem writeReg_inv {r : Reg} {v : RegValue} {s : State} (h : s.Inv)
    (hf : valueFits s.cfg r v = true) : (writeReg r v s).Inv := by
  cases r with
  | cur =>
    obtain ⟨n, rfl, hn⟩ := valueFits_number rfl hf
    exact setCur_inv h hn
  | val =>
    obtain ⟨n, rfl, hn⟩ := valueFits_number rfl hf
    exact setVal_inv h hn
  | name =>
    obtain ⟨n, rfl, hn⟩ := valueFits_name hf
    exact setName_inv h hn
  | _ => exact h

theorem deliver_inv {s : State} {p : Octets} {q : Peer} (h : s.Inv) (hp : p.length ≤ s.cfg.maxLen) :
    State.Inv { s with rx := s.rx.load p, rxlen := p.length, src := q } := by
  obtain ⟨hcfg, hst, hcur, hval, -, hrest⟩ := h
  exact ⟨hcfg, hst, hcur, hval, load_ok s.rx hp, hrest⟩

theorem hostStep_inv {a : HostAction} {s t : State} (h : s.Inv) (ht : hostStep a s = .next t) :
    t.Inv := by
  rcases hostStep_next_cases ht with ⟨p, q, -, hp, rfl⟩ | ⟨r, v, -, -, hf, rfl⟩ | ⟨r, -, rfl⟩ |
    ⟨-, rfl⟩ | ⟨c, i, -, -, hi⟩ | ⟨c, e, -, -, rfl⟩ | ⟨-, -, rfl⟩
  case inl => exact deliver_inv h hp
  case inr.inl => exact writeReg_inv h hf
  case inr.inr.inl => exact h
  case inr.inr.inr.inl => exact clearTx_inv h
  case inr.inr.inr.inr.inl => exact exec_inv h hi
  case inr.inr.inr.inr.inr.inl => exact setStatus_inv h (by decide)
  case inr.inr.inr.inr.inr.inr => exact h

/-- Settles O54: the block waits, a reset happens, or a host action is taken, and each keeps the invariant. -/
theorem stepKeepsTheInvariant : Obligations.StepKeepsTheInvariant := by
  intro s t h ht
  rcases step_next_cases ht with ⟨-, rfl⟩ | ⟨rest, -, rfl⟩ | ⟨a, rest, -, ha⟩
  · exact h
  · exact resetBlock_inv h.1
  · exact hostStep_inv (s := { s with inputs := rest }) h ha

/-- Settles O53: empty buffers are in order, and the parameters of State.reset are as R6-R8 require. -/
theorem resetMeetsTheInvariant : Obligations.ResetMeetsTheInvariant := by
  have hwf : Config.machine.wf := ⟨by decide, by decide, tableSrc_keys_nodup⟩
  exact ⟨fun c k hc => resetWith_inv k hc, resetWith_inv 0 hwf⟩

end Sys2Proof.Machine
end

section
/-! What no command does (R21, R22, R30-R35, R192): frames, the writers of a register, the cursor, and that STATUS is not read. -/

namespace Sys2Proof.Machine

/-! ### Frames and writers -/

/-- The commands that write TX, RESPOND apart, append or fault (R57). -/
theorem exec_appends {i : Instr} {s t : State} (hw : writesTx i = true) (hr : i ≠ .respond)
    (ht : exec i s = .next t) : appendsOrFaults s t := by
  cases i with
  | pack16 => exact exec_pack16_cases ht
  | pack32 => exact exec_pack32_cases ht
  | packname => exact exec_packname_cases ht
  | flagspack => exact exec_flagspack_cases ht
  | hdrpack => exact exec_hdrpack_cases ht
  | ansbuild => exact exec_ansbuild_cases ht
  | respond => exact absurd rfl hr
  | parsename | flagsunpack | hdrunpack | qunpack | lookup => cases hw

/-- The frame of all commands: RESPOND writes whatever any other one writes. -/
theorem exec_frame {i : Instr} {s t : State} (ht : exec i s = .next t) :
    t = { s with
        status := t.status, cur := t.cur, tx := t.tx, txlen := t.txlen, txvalid := t.txvalid,
        dst := t.dst, name := t.name, namelen := t.namelen, hdr := t.hdr, flags := t.flags,
        qtype := t.qtype, qclass := t.qclass, addr := t.addr } := by
  cases i with
  | pack16 | pack32 | packname | flagspack | hdrpack | ansbuild =>
    rw [appends_frame (exec_appends rfl (by decide) ht)]
  | parsename => rw [exec_parsename_frame ht]
  | qunpack => rw [exec_qunpack_frame ht]
  | hdrunpack => rw [exec_hdrunpack_frame ht]
  | flagsunpack => rw [exec_flagsunpack_frame ht]
  | lookup => rw [exec_lookup_frame ht]
  | respond => exact exec_respond_frame ht

/-- Settles O40: none of these is in the frame of all commands. -/
theorem commandsLeaveHostStateAlone : Obligations.CommandsLeaveHostStateAlone := by
  intro i s t ht
  rw [exec_frame ht]
  exact ⟨rfl, rfl, rfl, rfl, rfl, rfl, rfl, rfl⟩

/-- Settles O41: the frame of each command lists what it may change. -/
theorem onlyListedCommandsWriteARegister : Obligations.OnlyListedCommandsWriteARegister := by
  intro i s t ht
  cases i with
  | pack16 | pack32 | packname | flagspack | hdrpack | ansbuild =>
    rw [appends_frame (exec_appends rfl (by decide) ht)]; simp [writesTx]
  | parsename => rw [exec_parsename_frame ht]; simp
  | qunpack => rw [exec_qunpack_frame ht]; simp
  | hdrunpack => rw [exec_hdrunpack_frame ht]; simp
  | flagsunpack => rw [exec_flagsunpack_frame ht]; simp
  | lookup => rw [exec_lookup_frame ht]; simp
  | respond => simp [writesTx]

/-! ### The cursor -/

theorem exec_parsename_cur {s t : State} (ht : exec .parsename s = .next t) (h0 : t.status = 0) :
    s.cur < t.cur ∧ t.cur ≤ s.rxlen := by
  rcases exec_parsename_cases ht with rfl | ⟨n, next, hp, rfl⟩
  · exact absurd h0 (code_ne_zero .malformedMessage)
  · obtain ⟨hfwd, hle, -⟩ := parseName_sizes (by simp) hp
    exact ⟨hfwd, hle⟩

theorem exec_qunpack_cur {s t : State} (ht : exec .qunpack s = .next t) (h0 : t.status = 0) :
    s.cur < t.cur ∧ t.cur ≤ s.rxlen := by
  rcases exec_qunpack_cases ht with rfl | ⟨r, hr, rfl⟩
  · exact absurd h0 (code_ne_zero .malformedMessage)
  · obtain ⟨q, -, hfit, -, rfl⟩ := wire_of_qUnpack (by simp) hr
    have hlen := queryWire_length q
    refine ⟨?_, hfit⟩
    show s.cur < s.cur + (queryWire q).length
    omega

theorem exec_hdrunpack_cur {s t : State} (ht : exec .hdrunpack s = .next t) (h0 : t.status = 0) :
    t.cur = 12 ∧ 12 ≤ s.rxlen := by
  rcases exec_hdrunpack_cases ht with ⟨-, rfl⟩ | ⟨h12, rfl⟩
  · exact absurd h0 (code_ne_zero .malformedMessage)
  · exact ⟨rfl, h12⟩

theorem exec_respond_cur {s t : State} (ht : exec .respond s = .next t) (h0 : t.status = 0) :
    12 ≤ t.cur ∧ t.cur ≤ s.rxlen := by
  rcases exec_respond_cases ht with ⟨f, u, -, rfl, -⟩ | ⟨qs, ans, -, -, -, ⟨-, hfit, -⟩, -, -, rfl⟩
  · exact absurd h0 (code_ne_zero f)
  · have hcur : (loopState (respondStart s) qs).cur = 12 + (queriesWire qs).length := loopState_cur _ _
    show 12 ≤ (loopState (respondStart s) qs).cur ∧ (loopState (respondStart s) qs).cur ≤ s.rxlen
    omega

/-- Settles O42, command by command: an end other than the fault advances the cursor past what it decoded. -/
theorem cursorMovesForwardWithinTheDatagram : Obligations.CursorMovesForwardWithinTheDatagram := by
  intro i s t ht h0
  refine ⟨?_, ?_, ?_⟩
  · rintro (rfl | rfl)
    · exact exec_parsename_cur ht h0
    · exact exec_qunpack_cur ht h0
  · rintro rfl; exact exec_hdrunpack_cur ht h0
  · rintro rfl; exact exec_respond_cur ht h0

/-! ### STATUS is not read -/

theorem append_setStatus (s : State) (c : BitVec 3) (b : Octets) :
    (s.setStatus c).append b = (s.append b).map (·.setStatus c) := by
  rcases append_cases s b with ⟨hfit, he⟩ | ⟨hover, he⟩
  · rw [he, append_fits (s := s.setStatus c) hfit]; rfl
  · rw [he, append_overflows (s := s.setStatus c) hover]; rfl

/-- A leaf command ends the same whatever STATUS its writes were made beside. -/
theorem endLeaf_setStatus (s : State) (c : BitVec 3) (r : Except CommandFault State) :
    endLeaf (s.setStatus c) (r.map (·.setStatus c)) = endLeaf s r := by
  cases r <;> rfl

theorem endLeaf_append_setStatus (s : State) (c : BitVec 3) (b : Octets) :
    endLeaf (s.setStatus c) ((s.setStatus c).append b) = endLeaf s (s.append b) := by
  rw [append_setStatus, endLeaf_setStatus]

@[simp] theorem setStatus_setStatus (s : State) (c d : BitVec 3) :
    (s.setStatus c).setStatus d = s.setStatus d := rfl
@[simp] theorem setStatus_rxBytes (s : State) (c : BitVec 3) : (s.setStatus c).rxBytes = s.rxBytes := rfl
@[simp] theorem setStatus_nameBytes (s : State) (c : BitVec 3) :
    (s.setStatus c).nameBytes = s.nameBytes := rfl

theorem exec_packname_setStatus (s : State) (c : BitVec 3) :
    exec .packname (s.setStatus c) = exec .packname s := by
  simp only [exec, execPackname, setStatus_nameBytes]
  cases packName s.nameBytes with
  | error f => rfl
  | ok b => exact endLeaf_append_setStatus s c b

theorem exec_ansbuild_setStatus (s : State) (c : BitVec 3) :
    exec .ansbuild (s.setStatus c) = exec .ansbuild s := by
  simp only [exec, execAnsbuild, setStatus_nameBytes, State.setStatus_addr]
  cases ansBuild s.nameBytes s.addr with
  | error f => rfl
  | ok b => exact endLeaf_append_setStatus s c b

theorem exec_hdrpack_setStatus (s : State) (c : BitVec 3) :
    exec .hdrpack (s.setStatus c) = exec .hdrpack s := by
  simp only [exec, execHdrpack, State.setStatus_cur, State.setStatus_rxlen]
  by_cases hrange : s.cur < hdrLen ∨ s.rxlen < s.cur
  · simp only [hrange, if_true]; rfl
  · simp only [hrange, if_false]; exact endLeaf_append_setStatus s c _

theorem exec_hdrunpack_setStatus (s : State) (c : BitVec 3) :
    exec .hdrunpack (s.setStatus c) = exec .hdrunpack s := by
  simp only [exec, execHdrunpack, State.setStatus_rxlen]
  by_cases hshort : s.rxlen < hdrLen
  · simp only [hshort, if_true]; rfl
  · simp only [hshort, if_false]; rfl

theorem exec_parsename_setStatus (s : State) (c : BitVec 3) :
    exec .parsename (s.setStatus c) = exec .parsename s := by
  simp only [exec, execParsename, setStatus_rxBytes, State.setStatus_cur, State.setStatus_rxlen]
  cases parseName s.rxBytes s.cur s.rxlen <;> rfl

theorem exec_qunpack_setStatus (s : State) (c : BitVec 3) :
    exec .qunpack (s.setStatus c) = exec .qunpack s := by
  simp only [exec, execQunpack, setStatus_rxBytes, State.setStatus_cur, State.setStatus_rxlen]
  cases qUnpack s.rxBytes s.cur s.rxlen <;> rfl

/-- A fault of RESPOND with STATUS `c` in the state its raise leaves. -/
def raiseWithStatus (c : BitVec 3) (e : CommandFault × State) : CommandFault × State :=
  (e.1, e.2.setStatus c)

/-- The question loop carries STATUS along. -/
theorem respondLoop_setStatus (n : Nat) (s : State) (c : BitVec 3) (acc : Octets) :
    respondLoop n (s.setStatus c) acc =
      ((respondLoop n s acc).map fun r => (r.1.setStatus c, r.2)).mapError (raiseWithStatus c) := by
  induction n generalizing s acc with
  | zero => rfl
  | succ n ih =>
    simp only [respondLoop, setStatus_rxBytes, State.setStatus_cur, State.setStatus_rxlen]
    cases qUnpack s.rxBytes s.cur s.rxlen with
    | error f => rfl
    | ok q =>
      have hturn (a : Addr) :
          ((s.setStatus c).setQuestion q).setAddr a = ((s.setQuestion q).setAddr a).setStatus c := rfl
      simp only [State.setQuestion_cfg, setQuestion_nameBytes, State.setStatus_cfg, hturn,
        setStatus_nameBytes, State.setStatus_addr]
      cases ansBuild ((s.setQuestion q).setAddr (lookupAddr s.cfg q.name)).nameBytes
          ((s.setQuestion q).setAddr (lookupAddr s.cfg q.name)).addr with
      | error f => rfl
      | ok a => exact ih _ _

theorem respondReply_setStatus (s : State) (c : BitVec 3) (ans : Octets) :
    respondReply (s.setStatus c) ans =
      ((respondReply s ans).map (·.setStatus c)).mapError (raiseWithStatus c) := by
  have hecho : (s.setStatus c).questionEcho = s.questionEcho := rfl
  simp only [respondReply, hecho, State.setStatus_hdr, State.setStatus_flags, State.setStatus_cfg]
  split <;> rfl

theorem respondBody_setStatus (s : State) (c : BitVec 3) :
    respondBody (s.setStatus c) =
      ((respondBody s).map (·.setStatus c)).mapError (raiseWithStatus c) := by
  have hclear : (s.setStatus c).clearTx.setTxvalid false = (s.clearTx.setTxvalid false).setStatus c := rfl
  have hheader (u : State) : respondHeader (u.setStatus c) = (respondHeader u).setStatus c := rfl
  simp only [respondBody, hclear, hheader, State.setStatus_rxlen, State.setStatus_flags,
    State.setStatus_hdr, respondLoop_setStatus]
  split
  · rfl
  · split
    · rfl
    · cases respondLoop (respondHeader (s.clearTx.setTxvalid false)).hdr.qd.toNat
          (respondHeader (s.clearTx.setTxvalid false)) [] with
      | error e => rfl
      | ok r => exact respondReply_setStatus r.1 c r.2

theorem exec_respond_setStatus (s : State) (c : BitVec 3) :
    exec .respond (s.setStatus c) = exec .respond s := by
  simp only [exec, execRespond, respondBody_setStatus]
  cases respondBody s <;> rfl

/-- Settles O43: every command carries STATUS along unread, and its end overwrites it. -/
theorem statusIsNotSticky : Obligations.StatusIsNotSticky := by
  intro i s c
  show exec i (s.setStatus c) = exec i s
  cases i with
  | pack16 | pack32 | flagspack => exact endLeaf_append_setStatus s c _
  | packname => exact exec_packname_setStatus s c
  | ansbuild => exact exec_ansbuild_setStatus s c
  | hdrpack => exact exec_hdrpack_setStatus s c
  | hdrunpack => exact exec_hdrunpack_setStatus s c
  | parsename => exact exec_parsename_setStatus s c
  | qunpack => exact exec_qunpack_setStatus s c
  | flagsunpack | lookup => rfl
  | respond => exact exec_respond_setStatus s c

end Sys2Proof.Machine
end

section
/-! The host's actions, reset and the queue (R40-R47, R230, R231): what each step takes, what a register reads as after a write, and which actions stop the machine. -/

namespace Sys2Proof.Machine

/-! ### The queue -/

/-- Settles O3: `step_issue`. -/
theorem stepRunsTheIssuedCommand : Obligations.StepRunsTheIssuedCommand :=
  fun _ _ _ _ hin hc => step_issue hin hc

/-- Settles O4: `step_host` and `step_reset`. -/
theorem stepTakesTheOldestInput : Obligations.StepTakesTheOldestInput :=
  fun _ _ => ⟨fun _ hin => step_host hin, fun hin => step_reset hin⟩

/-! ### DELIVER, HOSTRD, TXCLR, SEND -/

/-- Settles O44: the datagram is loaded from index 0, and a loaded buffer is known below its length only. -/
theorem deliverLoadsTheDatagram : Obligations.DeliverLoadsTheDatagram := by
  intro s payload peer hfit
  refine ⟨{ s with rx := s.rx.load payload, rxlen := payload.length, src := peer }, ?_, ?_, rfl, rfl,
    ?_, rfl⟩
  · simp only [hostStep, deliver, if_pos hfit]
  · exact load_bytes rxNo s.rx payload
  · intro a ha
    show Memory.read? (s.rx.load payload).cells a = none
    rw [load_cells, read?_listFrom, if_pos (Nat.zero_le a)]
    exact List.getElem?_eq_none ha

@[simp] theorem view_length (k : Nat) (b : Buffer) (len n : Nat) :
    (Buffer.view k b len n).length = n := by
  simp [Buffer.view]

/-- What the host reads of a buffer begins with its valid octets. -/
theorem view_take (k : Nat) (b : Buffer) {len n : Nat} (h : len ≤ n) :
    (Buffer.view k b len n).take len = Buffer.bytes k b len := by
  rw [Buffer.view, ← List.map_take, List.take_range, Nat.min_eq_left h, Buffer.bytes]
  refine List.map_congr_left fun a ha => ?_
  rw [if_pos (List.mem_range.mp ha)]

/-- Settles O46: the valid octets of TX are the beginning of its view. -/
theorem hostReadChangesNothing : Obligations.HostReadChangesNothing :=
  fun s _ => ⟨rfl, fun hle => ⟨_, rfl, view_length _ _ _ _, view_take txNo s.tx hle⟩⟩

/-- Settles O47: a touched buffer keeps its known octets. -/
theorem txclrOnlyResetsTheLength : Obligations.TxclrOnlyResetsTheLength :=
  fun s => ⟨s.clearTx, rfl, rfl, fun _ => rfl, rfl⟩

/-- Settles O48, by the two values of TXVALID. -/
theorem sendTransmitsTheReply : Obligations.SendTransmitsTheReply := by
  intro s
  constructor
  · intro hvalid
    simp only [hostStep, send, if_pos hvalid, State.emit]
  · intro hvalid
    simp [hostStep, send, hvalid]

/-! ### HOSTWR -/

/-- Of ADDR only four octets fit (R29, R42). -/
theorem valueFits_addr {c : Config} {v : RegValue} (hf : valueFits c .addr v = true) :
    ∃ a b d e, v = .octets [a, b, d, e] := by
  cases v with
  | octets o =>
    obtain ⟨a, b, d, e, rfl⟩ := List.length_eq_four.mp (eq_of_beq hf)
    exact ⟨a, b, d, e, rfl⟩
  | word n => cases hf
  | peer p => cases hf

/-- Read after write, the register written (R42, R44). NAME reads with its free octets, so it is apart. -/
theorem readReg_writeReg_self {r : Reg} {v : RegValue} {s : State} (hw : hostMayWrite r = true)
    (hf : valueFits s.cfg r v = true) (hr : r ≠ .name) : readReg r (writeReg r v s) = v := by
  cases r with
  | cur | val =>
    obtain ⟨n, rfl, -⟩ := valueFits_number rfl hf
    rfl
  | id | fw | qd | an | ns | ar | qr | opc | aa | tc | rd | ra | z | rc | qtype | qclass =>
    obtain ⟨n, rfl, hn⟩ := valueFits_number rfl hf
    exact congrArg RegValue.word ((BitVec.toNat_ofNat _ _).trans (Nat.mod_eq_of_lt hn))
  | addr =>
    obtain ⟨a, b, d, e, rfl⟩ := valueFits_addr hf
    rfl
  | name => exact absurd rfl hr
  | status | rxlen | txlen | txvalid | namelen | src | dst | rx | tx => cases hw

/-- Read after write, any other register; NAMELEN is written with NAME (R27). -/
theorem readReg_writeReg_ne {r r' : Reg} (v : RegValue) (s : State) (hne : r' ≠ r)
    (hname : ¬(r = .name ∧ r' = .namelen)) : readReg r' (writeReg r v s) = readReg r' s := by
  cases r with
  | name =>
    cases r' with
    | name => exact absurd rfl hne
    | namelen => exact absurd ⟨rfl, rfl⟩ hname
    | _ => rfl
  | status | rxlen | txlen | txvalid | namelen | src | dst | rx | tx => rfl
  | _ => cases r' <;> first | rfl | contradiction

/-- Settles O45: read after write, the register written and the others. -/
theorem hostWriteWritesOneRegister : Obligations.HostWriteWritesOneRegister := by
  intro s r v hw hf
  refine ⟨writeReg r v s, ?_, readReg_writeReg_self hw hf, ?_,
    fun r' hne hname => readReg_writeReg_ne v s hne hname⟩
  · simp [hostStep, hostWrite, hw, hf]
  · rintro rfl
    obtain ⟨n, rfl, -⟩ := valueFits_name hf
    exact ⟨n, rfl, setName_nameBytes s n, rfl⟩

/-! ### Which actions stop the machine -/

theorem endLeaf_next (s : State) (r : Except CommandFault State) : ∃ t, endLeaf s r = .next t := by
  cases r with
  | ok t => exact ⟨_, endLeaf_ok s t⟩
  | error f => exact ⟨_, endLeaf_error s f⟩

/-- No command stops the machine: its faults are next states (R206). -/
theorem exec_next (i : Instr) (s : State) : ∃ t, exec i s = .next t := by
  cases i with
  | respond =>
    cases hb : respondBody s with
    | ok t => exact ⟨_, exec_respond_of_ok hb⟩
    | error e => exact ⟨_, exec_respond_of_error hb⟩
  | flagsunpack => exact ⟨_, exec_flagsunpack_eq s⟩
  | lookup => exact ⟨_, exec_lookup_eq s⟩
  | _ => exact endLeaf_next s _

theorem issue_next (c : BitVec 4) (s : State) : ∃ t, issue c s = .next t := by
  unfold issue
  split
  · exact exec_next _ s
  · exact ⟨_, takeFault_eq .illegalCommand s⟩

theorem deliver_fault_iff (p : Octets) (q : Peer) (s : State) :
    (∃ f, deliver p q s = .fault f) ↔ ¬ p.length ≤ s.cfg.maxLen := by
  unfold deliver
  split <;> simp_all

theorem hostWrite_fault_iff (r : Reg) (v : RegValue) (s : State) :
    (∃ f, hostWrite r v s = .fault f) ↔ (hostMayWrite r && valueFits s.cfg r v) = false := by
  unfold hostWrite
  split
  · simp_all
  · split <;> simp_all

/-- Settles O49: only DELIVER and HOSTWR test their action, no command and no read stops. -/
theorem illFormedHostActionsStop : Obligations.IllFormedHostActionsStop := by
  intro s a hsend
  cases a with
  | deliver p q => exact (deliver_fault_iff p q s).trans decide_eq_false_iff_not.symm
  | hostwr r v => exact hostWrite_fault_iff r v s
  | hostrd r | txclr => simp [hostStep, hostRead, txClear, HostAction.wellFormed]
  | issue c =>
    obtain ⟨t, ht⟩ := issue_next c s
    simp [hostStep, ht, HostAction.wellFormed]
  | send => exact absurd rfl hsend

/-! ### Reset and the configuration -/

/-- Settles O50: the reset is taken, and its state has these fields by definition. -/
theorem resetClearsTheSixRegisters : Obligations.ResetClearsTheSixRegisters :=
  fun _ _ hin => ⟨_, step_reset hin, rfl, rfl, rfl, rfl, rfl, rfl, rfl, rfl, rfl, rfl, rfl, rfl⟩

/-- Settles O51: the fields of the reset state, by definition. -/
theorem firstResetState : Obligations.FirstResetState :=
  ⟨rfl, rfl, rfl, rfl, rfl, rfl, rfl, rfl, rfl, rfl, rfl⟩

/-- Settles O52: below the position of the highest set bit no power of two exceeds MAX_LEN. -/
theorem cursorWidthIsLeast : Obligations.CursorWidthIsLeast := by
  refine fun c => ⟨lt_two_pow_lenw le_rfl, fun w hw => ?_⟩
  unfold Config.lenw
  split
  · exact Nat.zero_le w
  · rename_i h0
    exact (Nat.log2_lt h0).mpr hw

@[simp] theorem writeReg_cfg (r : Reg) (v : RegValue) (s : State) : (writeReg r v s).cfg = s.cfg := by
  cases r <;> rfl

theorem exec_cfg {i : Instr} {s t : State} (ht : exec i s = .next t) : t.cfg = s.cfg := by
  rw [exec_frame ht]

theorem hostStep_cfg {a : HostAction} {s t : State} (ht : hostStep a s = .next t) : t.cfg = s.cfg := by
  rcases hostStep_next_cases ht with ⟨p, q, -, -, rfl⟩ | ⟨r, v, -, -, -, rfl⟩ | ⟨r, -, rfl⟩ |
    ⟨-, rfl⟩ | ⟨c, i, -, -, hi⟩ | ⟨c, e, -, -, rfl⟩ | ⟨-, -, rfl⟩
  case inr.inl => exact writeReg_cfg r v s
  case inr.inr.inr.inr.inl => exact exec_cfg hi
  all_goals rfl

/-- Settles O55: the block waits, a reset happens, or a host action is taken, and each keeps the configuration. -/
theorem configurationNeverChanges : Obligations.ConfigurationNeverChanges := by
  intro s t ht
  rcases step_next_cases ht with ⟨-, rfl⟩ | ⟨rest, -, rfl⟩ | ⟨a, rest, -, ha⟩
  · rfl
  · rfl
  · exact hostStep_cfg (s := { s with inputs := rest }) ha

end Sys2Proof.Machine
end

section
/-! The encodings (30_encoding.md): the command word and its octet (R70, R71), the grammar of names (R79, R80, R113), and the reply frame (R86). -/

namespace Sys2Proof.Machine

/-! ### Names -/

theorem parseName_error {s : Octets} {off stop : Nat} {f : CommandFault}
    (h : parseName s off stop = .error f) : f = .malformedMessage :=
  parseLoop_error _ _ _ _ _ h

/-- What `parse_name` returns is a name of the grammar in dotted form, and the offset after it (R79, R113). -/
theorem parseName_ok_iff {s : Octets} {off stop : Nat} {n : Octets} {next : Nat} (hstop : stop ≤ s.length) :
    parseName s off stop = .ok (n, next) ↔ ∃ ls, nameAt s off stop ls next ∧ n = joinDots ls := by
  constructor
  · exact nameAt_of_parseName hstop
  · rintro ⟨ls, hname, rfl⟩
    exact parseName_of_nameAt hname

/-- Settles O11: the turns of the decoder's loop are the labels of the grammar, by induction on the labels (`parseLoop_complete`) and on the turns (`parseLoop_sound`). -/
theorem decoderAcceptsExactlyTheNameGrammar : Obligations.DecoderAcceptsExactlyTheNameGrammar := by
  refine fun s off stop hstop => ⟨fun n next => parseName_ok_iff hstop, fun f => ?_⟩
  rw [← parseName_error_iff hstop]
  constructor
  · intro herr
    obtain rfl := parseName_error herr
    exact ⟨rfl, herr⟩
  · rintro ⟨rfl, herr⟩
    exact herr

/-! ### The reply -/

/-- The body of RESPOND on an answerable datagram whose reply fits (R173). -/
theorem respondBody_answers {s : State} {qs : List Query} {ans : Octets} (h12 : 12 ≤ s.rxlen)
    (hopc : (s.rxOctet 2).toNat / 2 % 16 = 0)
    (hqd : 256 * (s.rxOctet 4).toNat + (s.rxOctet 5).toNat = qs.length)
    (hq : queriesAt s.rxBytes 12 s.rxlen qs) (ha : answersTo s.cfg qs = some ans)
    (hfit : 12 + (queriesWire qs).length + ans.length ≤ s.cfg.maxLen) :
    respondBody s = .ok (replied (loopState (respondStart s) qs) (replyHead s qs ++ ans)) := by
  have hloop : respondLoop qs.length (respondStart s) [] = .ok (loopState (respondStart s) qs, ans) := by
    rw [respondLoop_start s qs ans _ le_rfl hq ha, Nat.sub_self, respondLoop]
  rw [respondBody_loop s h12 hopc, respondStart_qd s h12, hqd, hloop]
  exact respondReply_fits s qs ans h12 hopc hq hfit

/-- Settles O27: the loop answers every question and the reply is stored from offset 0. -/
theorem respondAnswersEveryQuestion : Obligations.RespondAnswersEveryQuestion := by
  intro s qs ans h12 hopc hqd hq ha hfit
  have hbody := respondBody_answers h12 hopc hqd hq ha hfit
  refine ⟨_, exec_respond_of_ok hbody, rfl, rfl, ?_, replied_txBytes _ _, fun a hbeyond => ?_,
    afterQueries_loopState s h12 qs _ rfl⟩
  · show (loopState (respondStart s) qs).src = s.src
    rw [loopState_src, respondStart_src]
  · have hlen : (replyHead s qs ++ ans).length ≤ a := (Nat.zero_add _).symm.trans_le hbeyond
    rw [replied_outside _ _ a hlen, loopState_tx, respondStart_tx, touch_cells]

/-! ### The command word -/

@[simp] theorem decodeWord_encode (i : Instr) : decodeWord (encode i) = .ok i := by
  cases i <;> rfl

/-- A word that is read as a command is that command's word: no two words mean the same (R70). -/
theorem encode_of_decodeWord {c : BitVec 4} {i : Instr} (h : decodeWord c = .ok i) : encode i = c := by
  unfold decodeWord at h
  split at h <;> cases h <;> rfl

theorem decodeWord_reserved {c : BitVec 4} (h : c = 0x0#4 ∨ c = 0xD#4 ∨ c = 0xE#4 ∨ c = 0xF#4) :
    decodeWord c = .error (.reserved c) := by
  rcases h with rfl | rfl | rfl | rfl <;> rfl

/-- The octet whose low half is `c` and whose high half is zero carries the word `c` (entry 16). -/
theorem commandWord_octet (c : BitVec 4) (rest : Octets) :
    commandWord (BitVec.ofNat 8 c.toNat :: rest) = .ok c := by
  have hlt : c.toNat < 16 := c.isLt
  have hoctet : (BitVec.ofNat 8 c.toNat).toNat = c.toNat := by
    rw [BitVec.toNat_ofNat]; omega
  rw [commandWord, hoctet, if_pos hlt, BitVec.ofNat_toNat, BitVec.setWidth_eq]

theorem decode_encodeBytes_append (i : Instr) (rest : Octets) :
    decode (encodeBytes i ++ rest) = .ok (i, rest) := by
  have hword : commandWord (encodeBytes i ++ rest) = .ok (encode i) := commandWord_octet (encode i) rest
  simp only [decode, hword, decodeWord_encode]
  rfl

/-- Settles O1: each code of the table is the word of its command, the other four are reserved. -/
theorem decoderReadsTheCommandCodes : Obligations.DecoderReadsTheCommandCodes :=
  ⟨decodeWord_encode .pack16, decodeWord_encode .pack32, decodeWord_encode .packname,
    decodeWord_encode .parsename, decodeWord_encode .flagsunpack, decodeWord_encode .flagspack,
    decodeWord_encode .hdrunpack, decodeWord_encode .hdrpack, decodeWord_encode .qunpack,
    decodeWord_encode .ansbuild, decodeWord_encode .lookup, decodeWord_encode .respond,
    fun _ hc => decodeWord_reserved hc⟩

/-- Settles O2: the word, its converse, and the octet. -/
theorem decodeOfEncodeIsTheCommand : Obligations.DecodeOfEncodeIsTheCommand :=
  ⟨fun i _ => decodeWord_encode i, fun _ _ hc => encode_of_decodeWord hc,
    fun i rest _ => decode_encodeBytes_append i rest⟩

/-- Settles O5: the decoder refuses a reserved code, and the fault writes STATUS alone. -/
theorem reservedCodeChangesOnlyStatus : Obligations.ReservedCodeChangesOnlyStatus := by
  intro s c hc
  simp only [hostStep, issue, decodeWord_reserved hc]
  rfl

end Sys2Proof.Machine
end

section
/-! The Primitive Codec (40_primitive_codec.md): the octets of an integer (R100, R101) and the two commands that append them (R102, R103). -/

namespace Sys2Proof.Machine

/-! ### The octets of an integer -/

/-- Reducing modulo `2 ^ w` first does not change an octet that lies below bit `w` (R12, R100, R101). -/
theorem octet_mod_shiftRight (v : Nat) {k w : Nat} (h : k + 8 ≤ w) :
    BitVec.ofNat 8 ((v % 2 ^ w) >>> k) = BitVec.ofNat 8 (v / 2 ^ k) := by
  apply BitVec.eq_of_getLsbD_eq
  intro i hi
  have hlow : k + i < w := by omega
  simp only [BitVec.getLsbD_ofNat, Nat.testBit_shiftRight, Nat.testBit_mod_two_pow,
    Nat.testBit_div_two_pow, hlow, Nat.add_comm i k, decide_true, Bool.true_and]

theorem octet_mod (v : Nat) {w : Nat} (h : 8 ≤ w) : BitVec.ofNat 8 (v % 2 ^ w) = BitVec.ofNat 8 v := by
  simpa using octet_mod_shiftRight v (k := 0) (w := w) (by omega)

theorem pack16_eq (v : Nat) : pack16 v = [BitVec.ofNat 8 (v / 256), BitVec.ofNat 8 v] := by
  rw [pack16, octet_mod_shiftRight v (by decide), octet_mod v (by decide)]
  rfl

theorem pack32_eq (v : Nat) :
    pack32 v = [BitVec.ofNat 8 (v / 16777216), BitVec.ofNat 8 (v / 65536),
      BitVec.ofNat 8 (v / 256), BitVec.ofNat 8 v] := by
  rw [pack32, octet_mod_shiftRight v (by decide), octet_mod_shiftRight v (by decide),
    octet_mod_shiftRight v (by decide), octet_mod v (by decide)]
  rfl

/-! ### Appending them -/

/-- A leaf command that appends `b`, when it does not fit: TxOverflow, and STATUS alone is written (R57, R206). -/
theorem endLeaf_append_overflows {s : State} {b : Octets} (h : s.cfg.maxLen < s.txlen + b.length) :
    endLeaf s (s.append b) = .next { s with status := 4 } := by
  rw [append_overflows h, endLeaf_error]
  rfl

theorem exec_pack16_eq (s : State) :
    exec .pack16 s = endLeaf s (s.append [BitVec.ofNat 8 (s.val / 256), BitVec.ofNat 8 s.val]) := by
  rw [← pack16_eq]
  rfl

theorem exec_pack32_eq (s : State) :
    exec .pack32 s = endLeaf s (s.append [BitVec.ofNat 8 (s.val / 16777216),
      BitVec.ofNat 8 (s.val / 65536), BitVec.ofNat 8 (s.val / 256), BitVec.ofNat 8 s.val]) := by
  rw [← pack32_eq]
  rfl

/-- Settles O7: the command appends the two octets of VAL, and an append stores all or nothing. -/
theorem pack16AppendsLowSixteenBits : Obligations.Pack16AppendsLowSixteenBits := by
  refine ⟨decodeWord_encode .pack16, fun s => ?_⟩
  rw [exec_pack16_eq]
  exact ⟨fun hfit => endLeaf_append hfit, fun hover => endLeaf_append_overflows hover⟩

/-- Settles O8: the command appends the four octets of VAL, and an append stores all or nothing. -/
theorem pack32AppendsLowThirtyTwoBits : Obligations.Pack32AppendsLowThirtyTwoBits := by
  refine ⟨decodeWord_encode .pack32, fun s => ?_⟩
  rw [exec_pack32_eq]
  exact ⟨fun hfit => endLeaf_append hfit, fun hover => endLeaf_append_overflows hover⟩

end Sys2Proof.Machine
end

section
/-! The Label Codec (41_label_codec.md): splitting a name (R110), the sizes and the round trips of names (R113, R114, R116), and the commands PACKNAME and PARSENAME (R112, R115). -/

namespace Sys2Proof.Machine

/-! ### Names on the wire -/

/-- The label form of well-formed labels, taken alone, is a name of the grammar from its first octet to its last (R79). -/
theorem nameAt_labelForm {ls : List Octets} (hok : labelsOk ls) :
    nameAt (labelForm ls) 0 (labelForm ls).length ls (labelForm ls).length :=
  ⟨hok, (Nat.zero_add _).symm, le_rfl, by rw [slice, List.drop_zero, List.take_length]⟩

/-- The octets from `off` to where the name ends are its label form. -/
theorem slice_of_nameAt {s : Octets} {off stop next : Nat} {ls : List Octets}
    (h : nameAt s off stop ls next) : slice s off (next - off) = labelForm ls := by
  obtain ⟨-, rfl, -, hslice⟩ := h
  rw [Nat.add_sub_cancel_left, hslice]

/-- Settles O9: by induction on the name, each part a lemma about `splitDots`. -/
theorem splitPiecesRejoin : Obligations.SplitPiecesRejoin :=
  fun n => ⟨splitDots_length n, splitDots_dotFree n, joinDots_splitDots n⟩

/-- Settles O12: what the decoder consumed is a label form, and a dotted form is two octets shorter than its label form (`joinDots_length`). -/
theorem decodedNameSizes : Obligations.DecodedNameSizes := by
  intro s off stop n next hstop hparse
  obtain ⟨hoff, hnext, hlen⟩ := parseName_sizes hstop hparse
  obtain ⟨ls, hname, rfl⟩ := nameAt_of_parseName hstop hparse
  have hslice := slice_of_nameAt hname
  obtain ⟨hok, rfl, -, -⟩ := hname
  refine ⟨by omega, hnext, by omega, ls, hok, hslice, fun hne => ?_, ?_⟩
  · have := joinDots_length hne
    omega
  · rintro rfl
    exact ⟨rfl, rfl⟩

/-! ### The round trips -/

/-- Settles O13: an encoded name is a label form, which the decoder reads to its end. -/
theorem decodingUndoesEncodingOfNames : Obligations.DecodingUndoesEncodingOfNames := by
  intro n p hpack
  obtain ⟨ls, hok, -, rfl, rfl⟩ := packName_ok hpack
  exact parseName_of_nameAt (nameAt_labelForm hok)

/-- A label that contains a DOT is split, so the dotted form has more pieces than there were labels (R116 b). -/
theorem length_lt_splitDots_joinDots {ls : List Octets} (hdot : ¬ dotFree ls) :
    ls.length < (splitDots (joinDots ls)).length := by
  simp only [dotFree, not_forall, not_not] at hdot
  obtain ⟨l, hl, hmem⟩ := hdot
  have hcount := joinDots_count ls (List.ne_nil_of_mem hl)
  have hsum : l.count dot ≤ (ls.map (List.count dot)).sum :=
    List.le_sum_of_mem (List.mem_map_of_mem hl)
  have hpos : 0 < l.count dot := List.count_pos_iff.mpr hmem
  rw [splitDots_length]
  omega

/-- Settles O14: without DOT in a label the pieces are the labels, and with one there are more of them. -/
theorem encodingUndoesDecodingWithoutDots : Obligations.EncodingUndoesDecodingWithoutDots := by
  intro s off stop ls next hname
  rw [slice_of_nameAt hname]
  obtain ⟨hok, -, -, -⟩ := hname
  refine ⟨fun hfree => packName_joinDots hok hfree, fun hdot => ?_⟩
  rcases packName_cases (joinDots ls) with ⟨hempty, -⟩ | ⟨-, hpieces, hpack⟩ | ⟨-, -, hpack⟩
  · obtain rfl := joinDots_eq_nil hok hempty
    exact absurd (List.forall_mem_nil _) hdot
  · exact .inr ⟨_, hpack, hpieces, length_lt_splitDots_joinDots hdot⟩
  · exact .inl hpack

/-! ### PACKNAME and PARSENAME -/

theorem exec_packname_of_ok {s : State} {b : Octets} (h : packName s.nameBytes = .ok b) :
    exec .packname s = endLeaf s (s.append b) := by
  simp only [exec, execPackname, h]

theorem exec_packname_of_error {s : State} {f : CommandFault} (h : packName s.nameBytes = .error f) :
    exec .packname s = .next (s.setStatus f.code) := by
  simp only [exec, execPackname, h, endLeaf_error]

theorem exec_parsename_of_ok {s : State} {n : Octets} {next : Nat}
    (h : parseName s.rxBytes s.cur s.rxlen = .ok (n, next)) :
    exec .parsename s = .next (((s.setName n).setCur next).setStatus 0) := by
  simp only [exec, execParsename, h, endLeaf_ok]

theorem exec_parsename_of_error {s : State} {f : CommandFault}
    (h : parseName s.rxBytes s.cur s.rxlen = .error f) :
    exec .parsename s = .next (s.setStatus f.code) := by
  simp only [exec, execParsename, h, endLeaf_error]

/-- PACKNAME appends the label form of well-formed labels without DOT whose dotted form is NAME (R110). -/
theorem exec_packname_of_labels {s : State} {ls : List Octets} (hfree : dotFree ls)
    (hname : s.nameBytes = joinDots ls) (hok : labelsOk ls) :
    exec .packname s = endLeaf s (s.append (labelForm ls)) :=
  exec_packname_of_ok (by rw [hname, packName_joinDots hok hfree])

/-- Settles O10: the encoder answers the label form or NameEncode, and an append stores all or nothing. -/
theorem packnameAppendsTheLabelForm : Obligations.PacknameAppendsTheLabelForm := by
  refine ⟨decodeWord_encode .packname, fun s ls hfree hname => ⟨fun hok hfit => ?_,
    fun hok hover => ?_, fun hbad hne => ?_⟩⟩
  · rw [exec_packname_of_labels hfree hname hok]
    exact endLeaf_append hfit
  · rw [exec_packname_of_labels hfree hname hok]
    exact endLeaf_append_overflows hover
  · have hpack : packName s.nameBytes = .error .nameEncode := by
      rw [hname] at hne ⊢
      exact packName_bad hfree hne hbad
    exact exec_packname_of_error hpack

/-- Settles O15: the decoder against the grammar, then the two ends of a leaf command. -/
theorem parsenameDecodesTheNameAtTheCursor : Obligations.ParsenameDecodesTheNameAtTheCursor := by
  refine ⟨decodeWord_encode .parsename, fun s => ⟨fun ls next hname => ?_, fun hnone => ?_⟩⟩
  · exact ⟨_, exec_parsename_of_ok (parseName_of_nameAt hname), rfl, setName_nameBytes s _, rfl, rfl⟩
  · exact exec_parsename_of_error ((parseName_error_iff (rxBytes_length s).ge).mpr hnone)

end Sys2Proof.Machine
end

section
/-! The Flags Codec (42_flags_codec.md): the round trips of the flag word (R135), and the commands FLAGSUNPACK and FLAGSPACK (R133, R134). -/

namespace Sys2Proof.Machine

/-! ### The round trips -/

/-- The fields stand in the word they make at the positions of R130. -/
theorem flagsWord_fields (f : FlagFields) : flagFieldsOf (flagsWord f).toNat f := by
  have hqr := f.qr.isLt
  have hopc := f.opc.isLt
  have haa := f.aa.isLt
  have htc := f.tc.isLt
  have hrd := f.rd.isLt
  have hra := f.ra.isLt
  have hz := f.z.isLt
  have hrc := f.rc.isLt
  rw [flagsWord_toNat]
  refine ⟨?_, ?_, ?_, ?_, ?_, ?_, ?_, ?_⟩ <;> omega

@[simp] theorem flagsUnpack_flagsWord (f : FlagFields) : flagsUnpack (flagsWord f) = f :=
  flagFieldsOf_unique (flagsUnpack_fields (flagsWord f)) (flagsWord_fields f)

/-- The fields of a word, each at its place, make up all of its sixteen bits. -/
@[simp] theorem flagsWord_flagsUnpack (w : Half) : flagsWord (flagsUnpack w) = w := by
  obtain ⟨hqr, hopc, haa, htc, hrd, hra, hz, hrc⟩ := flagsUnpack_fields w
  have hw := w.isLt
  apply BitVec.eq_of_toNat_eq
  rw [flagsWord_toNat, hqr, hopc, haa, htc, hrd, hra, hz, hrc]
  omega

/-- The two octets of a word, joined, are the word (R132). -/
theorem flagsFromOctets_octets (w : Half) : flagsFromOctets (w.setWidth 8) ((w >>> 8).setWidth 8) = w := by
  have hw := w.isLt
  apply BitVec.eq_of_toNat_eq
  rw [flagsFromOctets_toNat]
  simp only [BitVec.toNat_setWidth, BitVec.toNat_ushiftRight, Nat.shiftRight_eq_div_pow]
  omega

/-- Settles O19: joining the octets gives the word back, and word and fields determine each other. -/
theorem flagsRoundTrip : Obligations.FlagsRoundTrip := by
  refine ⟨fun f => ⟨_, _, rfl, ?_⟩, flagsWord_flagsUnpack⟩
  rw [flagsFromOctets_octets, flagsUnpack_flagsWord]

/-! ### FLAGSUNPACK and FLAGSPACK -/

theorem exec_flagspack_eq (s : State) :
    exec .flagspack s = endLeaf s (s.append
      [BitVec.ofNat 8 (s.flags.qr.toNat + 2 * s.flags.opc.toNat + 32 * s.flags.aa.toNat +
        64 * s.flags.tc.toNat + 128 * s.flags.rd.toNat),
       BitVec.ofNat 8 (s.flags.ra.toNat + 2 * s.flags.z.toNat + 16 * s.flags.rc.toNat)]) := by
  rw [← flagsPack_eq]
  rfl

/-- Settles O18: the command appends the two octets of the fields, and an append stores all or nothing. -/
theorem flagspackAppendsTheTwoOctets : Obligations.FlagspackAppendsTheTwoOctets := by
  refine ⟨decodeWord_encode .flagspack, fun s => ?_⟩
  rw [exec_flagspack_eq]
  exact ⟨fun hfit => endLeaf_append hfit, fun hover => endLeaf_append_overflows hover⟩

/-- Settles O17: the fields written are those of FW, and the frame is the command's. -/
theorem flagsunpackWritesTheEightFields : Obligations.FlagsunpackWritesTheEightFields :=
  ⟨decodeWord_encode .flagsunpack, fun s => ⟨_, exec_flagsunpack_eq s, rfl,
    flagsUnpack_fields s.hdr.fw, exec_flagsunpack_frame (exec_flagsunpack_eq s)⟩⟩

end Sys2Proof.Machine
end

section
/-! The Header Codec (43_header_codec.md): the round trip of the reply header (R144), and the commands HDRUNPACK and HDRPACK (R141, R143). -/

namespace Sys2Proof.Machine

/-! ### The round trip -/

/-- The word of the reply flags: QR, AA, RD and RA are the bits of 0x01A1, and the opcode stands from bit 1 up (R78, R130). -/
theorem flagsWord_replyFlags (opc : BitVec 4) :
    flagsWord (replyFlags opc) = (0x01A1 : Half) ||| (opc.setWidth 16 <<< 1) := by
  have hbits : (0x01A1 : Half) = 0x1 ||| 0x20 ||| 0x0 ||| 0x80 ||| 0x100 ||| 0x0 ||| 0x0 := rfl
  show (0x1 : Half) ||| (opc.setWidth 16 <<< 1) ||| 0x20 ||| 0x0 ||| 0x80 ||| 0x100 ||| 0x0 ||| 0x0 = _
  rw [hbits]
  ac_rfl

/-- The flag octets stand at offsets 2 and 3, first the low-order one (R132, R142). -/
theorem hdrUnpack_hdrPack_fw (id : Half) (opc : BitVec 4) (qd an : Half) (q : Octets) :
    (hdrUnpack (hdrPack id opc qd an q)).fw = flagsWord (replyFlags opc) :=
  flagsFromOctets_octets (flagsWord (replyFlags opc))

/-- Settles O22: each count and the transaction id is a packed 16-bit field read back at its own offset, and the flag word is its two octets joined. -/
theorem headerRoundTrip : Obligations.HeaderRoundTrip := by
  intro id opc qd an q
  rw [hdrUnpack, Header.mk.injEq]
  have hfw := (hdrUnpack_hdrPack_fw id opc qd an q).trans (flagsWord_replyFlags opc)
  exact ⟨be16_pack16 id, hfw, be16_pack16 qd, be16_pack16 an, be16_pack16 0, be16_pack16 0⟩

/-! ### HDRUNPACK -/

theorem exec_hdrunpack_of_le {s : State} (h : 12 ≤ s.rxlen) :
    exec .hdrunpack s = .next (((s.setHdr (hdrUnpack s.rxHead)).setCur 12).setStatus 0) := by
  rw [exec, execHdrunpack, if_neg (Nat.not_lt.mpr h), endLeaf_ok]

theorem exec_hdrunpack_of_lt {s : State} (h : s.rxlen < 12) :
    exec .hdrunpack s = .next (s.setStatus 1) := by
  rw [exec, execHdrunpack, if_pos h, endLeaf_error]
  rfl

/-- Settles O20: by the length of the datagram; the fields read are the octets of RX at their offsets (`hdrUnpack_rxHead`), and the frame is the command's. -/
theorem hdrunpackReadsTheHeader : Obligations.HdrunpackReadsTheHeader := by
  refine ⟨decodeWord_encode .hdrunpack, fun s => ⟨fun hlong => ?_, fun hshort => ?_⟩⟩
  · have hexec := exec_hdrunpack_of_le hlong
    exact ⟨_, hexec, rfl, hdrUnpack_rxHead s hlong, rfl, exec_hdrunpack_frame hexec⟩
  · exact exec_hdrunpack_of_lt hshort

/-! ### HDRPACK -/

/-- The reply to the datagram up to the cursor: the header of the registers and the question echo (R142). -/
def replyPrefix (s : State) : Octets := hdrPack s.hdr.id s.flags.opc s.hdr.qd s.hdr.an s.questionEcho

/-- With the cursor inside the datagram, the command is the append of the reply header and the echo. -/
theorem exec_hdrpack_of_cur {s : State} (h12 : 12 ≤ s.cur) (hrx : s.cur ≤ s.rxlen) :
    exec .hdrpack s = endLeaf s (s.append (replyPrefix s)) := by
  have hinside : ¬ (s.cur < hdrLen ∨ s.rxlen < s.cur) := by simp only [hdrLen]; omega
  rw [exec, execHdrpack, if_neg hinside, replyPrefix]

/-- With the cursor outside, OperandRange, before any question of room (R143, R209). -/
theorem exec_hdrpack_of_cur_outside {s : State} (h : s.cur < 12 ∨ s.rxlen < s.cur) :
    exec .hdrpack s = .next (s.setStatus 6) := by
  rw [exec, execHdrpack, if_pos h, endLeaf_error]
  rfl

/-- The reply header and the echo octet by octet, in the form of the claim (R143). -/
theorem replyPrefix_eq {s : State} (hrx : s.cur ≤ s.rxlen) :
    replyPrefix s =
      [BitVec.ofNat 8 (s.hdr.id.toNat / 256), BitVec.ofNat 8 s.hdr.id.toNat,
        BitVec.ofNat 8 (0xA1 + 2 * s.flags.opc.toNat), 0x01,
        BitVec.ofNat 8 (s.hdr.qd.toNat / 256), BitVec.ofNat 8 s.hdr.qd.toNat,
        BitVec.ofNat 8 (s.hdr.an.toNat / 256), BitVec.ofNat 8 s.hdr.an.toNat,
        0x00, 0x00, 0x00, 0x00] ++
        (List.range (s.cur - 12)).map (fun i => s.rxOctet (12 + i)) := by
  rw [replyPrefix, hdrPack_eq, questionEcho_eq s hrx]

/-- The twelve octets of the header and the `CUR - 12` of the echo are `CUR` octets. -/
theorem replyPrefix_length {s : State} (h12 : 12 ≤ s.cur) (hrx : s.cur ≤ s.rxlen) :
    (replyPrefix s).length = s.cur := by
  rw [replyPrefix, hdrPack_length, questionEcho_eq s hrx, List.length_map, List.length_range]
  omega

/-- Settles O21: the command appends the reply header and the echo, `CUR` octets in all, and an append stores all or nothing. -/
theorem hdrpackAppendsTheReplyHeader : Obligations.HdrpackAppendsTheReplyHeader := by
  refine ⟨decodeWord_encode .hdrpack, fun s => ⟨fun h12 hrx hfit => ?_, fun h12 hrx hover => ?_,
    fun houtside => exec_hdrpack_of_cur_outside houtside⟩⟩
  · rw [exec_hdrpack_of_cur h12 hrx, ← replyPrefix_eq hrx]
    exact endLeaf_append (by rwa [replyPrefix_length h12 hrx])
  · rw [exec_hdrpack_of_cur h12 hrx]
    exact endLeaf_append_overflows (by rwa [replyPrefix_length h12 hrx])

end Sys2Proof.Machine
end

section
/-! The Question Codec (44_question_codec.md): the question that stands after a name (R150), and the command QUNPACK (R151). -/

namespace Sys2Proof.Machine

/-- A 16-bit read of RX below RXLEN, in the octets of claims (R12). -/
theorem be16_rxBytes_toNat {s : State} {a : Nat} (h : a + 1 < s.rxlen) :
    (be16 s.rxBytes a).toNat = 256 * (s.rxOctet a).toNat + (s.rxOctet (a + 1)).toNat := by
  rw [be16_toNat, octetAt_rxBytes s a (by omega), octetAt_rxBytes s (a + 1) h]

/-- A name with room for four octets after it is a question: they are its type and its class (R150). -/
theorem qUnpack_of_nameAt {s : Octets} {off stop next : Nat} {ls : List Octets}
    (hname : nameAt s off stop ls next) (hfit : next + 4 ≤ stop) :
    qUnpack s off stop = .ok ⟨joinDots ls, be16 s next, be16 s (next + 2), next + 4⟩ := by
  simp only [qUnpack, parseName_of_nameAt hname, if_neg (Nat.not_lt.mpr hfit)]

theorem exec_qunpack_of_ok {s : State} {q : Question}
    (h : qUnpack s.rxBytes s.cur s.rxlen = .ok q) :
    exec .qunpack s = .next ((s.setQuestion q).setStatus 0) := by
  simp only [exec, execQunpack, h, endLeaf_ok]

theorem exec_qunpack_of_error {s : State} {f : CommandFault}
    (h : qUnpack s.rxBytes s.cur s.rxlen = .error f) :
    exec .qunpack s = .next (s.setStatus f.code) := by
  simp only [exec, execQunpack, h, endLeaf_error]

/-- Settles O23: a name with room after it is a question, whose fields are octets of RX; where none stands the decoder raises MalformedMessage. -/
theorem qunpackDecodesTheQuestionAtTheCursor :
    Obligations.QunpackDecodesTheQuestionAtTheCursor := by
  refine ⟨decodeWord_encode .qunpack, fun s => ⟨fun ls next hname hfit => ?_, fun hnone => ?_⟩⟩
  · have hexec := exec_qunpack_of_ok (qUnpack_of_nameAt hname hfit)
    have htype := be16_rxBytes_toNat (s := s) (a := next) (by omega)
    have hclass := be16_rxBytes_toNat (s := s) (a := next + 2) (by omega)
    exact ⟨_, hexec, rfl, setQuestion_nameBytes s _, htype, hclass, rfl, exec_qunpack_frame hexec⟩
  · exact exec_qunpack_of_error ((qUnpack_error_iff (rxBytes_length s).ge).mpr ⟨rfl, hnone⟩)

end Sys2Proof.Machine
end

section
/-! The Answer Builder (45_answer_builder.md): the address record of a name given by its labels (R160), and the command ANSBUILD (R161). -/

namespace Sys2Proof.Machine

/-! ### The address record -/

/-- The address record of the name made of `ls`: the label form, the ten fixed octets (type, class, TTL, data length) and the address (R160). -/
def addressRecord (ls : List Octets) (a : Addr) : Octets :=
  labelForm ls ++
    [0x00, 0x01, 0x00, 0x01, 0x00, 0x00, 0x02, 0x58, 0x00, 0x04, a.b0, a.b1, a.b2, a.b3]

theorem addressRecord_length (ls : List Octets) (a : Addr) :
    (addressRecord ls a).length = (labelForm ls).length + 14 :=
  List.length_append

theorem ansBuild_of_labels {ls : List Octets} (hfree : dotFree ls) (hok : labelsOk ls) (a : Addr) :
    ansBuild (joinDots ls) a = .ok (addressRecord ls a) := by
  rw [ansBuild_ok a (packName_joinDots hok hfree), List.append_assoc]
  rfl

/-! ### ANSBUILD -/

theorem exec_ansbuild_of_ok {s : State} {b : Octets} (h : ansBuild s.nameBytes s.addr = .ok b) :
    exec .ansbuild s = endLeaf s (s.append b) := by
  simp only [exec, execAnsbuild, h]

theorem exec_ansbuild_of_error {s : State} {f : CommandFault}
    (h : ansBuild s.nameBytes s.addr = .error f) :
    exec .ansbuild s = .next (s.setStatus f.code) := by
  simp only [exec, execAnsbuild, h, endLeaf_error]

/-- ANSBUILD appends the address record of well-formed labels without DOT whose dotted form is NAME. -/
theorem exec_ansbuild_of_labels {s : State} {ls : List Octets} (hfree : dotFree ls)
    (hname : s.nameBytes = joinDots ls) (hok : labelsOk ls) :
    exec .ansbuild s = endLeaf s (s.append (addressRecord ls s.addr)) :=
  exec_ansbuild_of_ok (by rw [hname, ansBuild_of_labels hfree hok])

/-- Settles O24: the record is built before TX is reached, so a bad label is NameEncode whatever the room; and an append stores all or nothing. -/
theorem ansbuildAppendsTheAddressRecord : Obligations.AnsbuildAppendsTheAddressRecord := by
  refine ⟨decodeWord_encode .ansbuild, fun s ls hfree hname => ⟨fun hok hfit => ?_,
    fun hok hover => ?_, fun hbad hne => ?_⟩⟩
  · rw [exec_ansbuild_of_labels hfree hname hok]
    exact endLeaf_append (by rwa [addressRecord_length])
  · rw [exec_ansbuild_of_labels hfree hname hok]
    exact endLeaf_append_overflows (by rwa [addressRecord_length])
  · have hpack : packName s.nameBytes = .error .nameEncode := by
      rw [hname] at hne ⊢
      exact packName_bad hfree hne hbad
    exact exec_ansbuild_of_error (ansBuild_error s.addr hpack)

end Sys2Proof.Machine
end

section
/-! The Dispatcher (46_frame_parser.md): the table lookup (R171), the drops of RESPOND (R174, R175, R207), the reply to no questions (R178), and what the reply depends on (R179, R180). -/

namespace Sys2Proof.Machine

/-! ### LOOKUP -/

/-- Settles O25: `lookup` finds the one entry of a table without repeats, and no entry where none stands. -/
theorem lookupReadsTheTable : Obligations.LookupReadsTheTable := by
  refine ⟨decodeWord_encode .lookup, fun s => ⟨_, exec_lookup_eq s, rfl, fun hnodup a ha => ?_,
    fun hnone => ?_, rfl⟩⟩
  · show lookupAddr s.cfg s.nameBytes = a
    rw [lookupAddr, tableFind_mem hnodup ha, Option.getD_some]
  · show lookupAddr s.cfg s.nameBytes = s.cfg.defaultAddr
    rw [lookupAddr, tableFind_none hnone, Option.getD_none]

/-! ### The drops -/

/-- Every fault of RESPOND drops the datagram with its own code (R207). -/
theorem exec_respond_drops {s u : State} {f : CommandFault} (h : respondBody s = .error (f, u)) :
    dropped s (u.forgetTx.setStatus f.code) f.code := by
  rcases exec_respond_cases (exec_respond_of_error h) with ⟨f', u', h', -, hu⟩ | ⟨qs, ans, -, -, -, -, -, -, ht⟩
  · obtain ⟨rfl, rfl⟩ : f = f' ∧ u = u' := by simpa [h] using h'
    rcases hu with ⟨rfl, -⟩ | ⟨-, qs, -, rfl, -⟩
    · exact ⟨rfl, rfl, rfl, rfl, rfl⟩
    · exact ⟨rfl, loopState_txlen _ qs, loopState_txvalid _ qs, loopState_dst _ qs, rfl⟩
  · exact absurd (congrArg State.status ht) (code_ne_zero f)

/-- Settles O29: the length is tested before anything but TXLEN and TXVALID is written. -/
theorem respondDropsShortDatagrams : Obligations.RespondDropsShortDatagrams := by
  intro s hshort
  have hbody := respondBody_short s hshort
  exact ⟨_, exec_respond_of_error hbody, exec_respond_drops hbody, rfl⟩

/-- Settles O28: the gate stands before the question loop, so the state is that of a datagram of which no question was decoded. -/
theorem respondDropsOtherOpcodes : Obligations.RespondDropsOtherOpcodes := by
  intro s h12 hopc
  have hbody := respondBody_gate s h12 hopc
  exact ⟨_, exec_respond_of_error hbody, exec_respond_drops hbody, afterQueries_loopState s h12 [] _ rfl⟩

section
variable {s : State} {qs : List Query} {ans : Octets} (h12 : 12 ≤ s.rxlen)
  (hopc : (s.rxOctet 2).toNat / 2 % 16 = 0) (ha : answersTo s.cfg qs = some ans)
include h12 hopc ha

/-- The loop ends at a declared question that does not stand after the answerable ones (R175). -/
theorem respondBody_badQuestion (hqd : qs.length < 256 * (s.rxOctet 4).toNat + (s.rxOctet 5).toNat)
    (hq : queriesAt s.rxBytes 12 s.rxlen qs)
    (hbad : noQueryAt s.rxBytes (12 + (queriesWire qs).length) s.rxlen) :
    respondBody s = .error (.malformedMessage, loopState (respondStart s) qs) := by
  rw [respondBody_loop s h12 hopc, respondStart_qd s h12, respondLoop_start s qs ans _ hqd.le hq ha]
  have hfault : qUnpack (loopState (respondStart s) qs).rxBytes (loopState (respondStart s) qs).cur
      (loopState (respondStart s) qs).rxlen = .error .malformedMessage := by
    rw [loopState_rxBytes, loopState_cur, loopState_rxlen]
    exact (qUnpack_error_iff (rxBytes_length s).ge).mpr ⟨rfl, hbad⟩
  obtain ⟨k, hk⟩ := Nat.exists_eq_succ_of_ne_zero (Nat.sub_ne_zero_of_lt hqd)
  simp only [hk, respondLoop, hfault]

/-- The loop ends at a declared question whose name cannot be encoded, with its registers written (R203, R207). -/
theorem respondBody_badName {q : Query}
    (hqd : qs.length < 256 * (s.rxOctet 4).toNat + (s.rxOctet 5).toNat)
    (hq : queriesAt s.rxBytes 12 s.rxlen (qs ++ [q]))
    (hbad : packName (joinDots q.labels) = .error .nameEncode) :
    respondBody s = .error (.nameEncode, loopState (respondStart s) (qs ++ [q])) := by
  obtain ⟨hqs, hlast⟩ := queriesAt_append _ _ _ _ _ hq
  obtain ⟨⟨hok, hfit, hslice⟩, -⟩ := (queriesAt_cons _ _ _ _ _).mp hlast
  rw [respondBody_loop s h12 hopc, respondStart_qd s h12, respondLoop_start s qs ans _ hqd.le hqs ha]
  obtain ⟨k, hk⟩ := Nat.exists_eq_succ_of_ne_zero (Nat.sub_ne_zero_of_lt hqd)
  have hturn := respondLoop_succ_of_wire (s := loopState (respondStart s) qs) k ans hok
    (by rwa [loopState_cur, loopState_rxlen]) (by rwa [loopState_cur, loopState_rxBytes])
  rw [ansBuild_error _ hbad] at hturn
  rw [hk, hturn, loopState_append]
  rfl

/-- All questions are answered, but the reply does not fit (R204). -/
theorem respondBody_overflows (hqd : 256 * (s.rxOctet 4).toNat + (s.rxOctet 5).toNat = qs.length)
    (hq : queriesAt s.rxBytes 12 s.rxlen qs)
    (hover : s.cfg.maxLen < 12 + (queriesWire qs).length + ans.length) :
    respondBody s = .error (.txOverflow, loopState (respondStart s) qs) := by
  rw [respondBody_loop s h12 hopc, respondStart_qd s h12, hqd, respondLoop_start s qs ans _ le_rfl hq ha,
    Nat.sub_self, respondLoop]
  exact respondReply_overflows s qs ans h12 hopc hq hover

end

/-- Settles O30: the questions before the bad one are answered, and its decoding raises with the cursor at its start. -/
theorem respondDropsAtTheFirstBadQuestion : Obligations.RespondDropsAtTheFirstBadQuestion := by
  intro s qs ans h12 hopc hqd hq ha hbad
  have hbody := respondBody_badQuestion h12 hopc ha hqd hq hbad
  exact ⟨_, exec_respond_of_error hbody, exec_respond_drops hbody, afterQueries_loopState s h12 qs _ rfl⟩

/-! ### The reply -/

/-- A datagram that RESPOND ends with STATUS 0 is an answerable one whose reply fits (R173). -/
theorem exec_respond_answered {s t : State} (ht : exec .respond s = .next t) (h0 : t.status = 0) :
    ∃ qs ans, 12 ≤ s.rxlen ∧ (s.rxOctet 2).toNat / 2 % 16 = 0 ∧
      256 * (s.rxOctet 4).toNat + (s.rxOctet 5).toNat = qs.length ∧
      queriesAt s.rxBytes 12 s.rxlen qs ∧ answersTo s.cfg qs = some ans ∧
      12 + (queriesWire qs).length + ans.length ≤ s.cfg.maxLen ∧
      t = (replied (loopState (respondStart s) qs) (replyHead s qs ++ ans)).setStatus 0 := by
  rcases exec_respond_cases ht with ⟨f, u, -, rfl, -⟩ | hanswered
  · exact absurd h0 (code_ne_zero f)
  · exact hanswered

/-- Settles O34: RespondAnswersEveryQuestion (R178 is its case of no questions). -/
theorem respondToZeroQuestions : Obligations.RespondToZeroQuestions := by
  intro s hmax h12 hopc h4 h5
  have hnone : queriesAt s.rxBytes 12 s.rxlen [] := ⟨by simp, by simpa using h12, by simp⟩
  obtain ⟨t, hexec, hstatus, hvalid, -, htx, -, -, -, hcur, -⟩ :=
    respondAnswersEveryQuestion s [] [] h12 hopc (by simp [h4, h5]) hnone rfl (by simpa using hmax)
  refine ⟨t, hexec, hstatus, hvalid, hcur, ?_⟩
  simpa [h4, h5] using htx

/-! ### What the reply depends on -/

/-- Two blocks of one configuration that hold one datagram: RESPOND ends in both with the same fault, or stores the same reply in both (R180). -/
theorem respondBody_same_datagram {s s' : State} (hcfg : s.cfg = s'.cfg) (hrx : s.rxBytes = s'.rxBytes) :
    (∃ f u u', respondBody s = .error (f, u) ∧ respondBody s' = .error (f, u')) ∨
    (∃ qs reply, respondBody s = .ok (replied (loopState (respondStart s) qs) reply) ∧
      respondBody s' = .ok (replied (loopState (respondStart s') qs) reply)) := by
  have hlen : s.rxlen = s'.rxlen := by rw [← rxBytes_length, hrx, rxBytes_length]
  have hoctet (a : Nat) (h : a < s.rxlen) : s.rxOctet a = s'.rxOctet a := by
    rw [← octetAt_rxBytes s a h, hrx, octetAt_rxBytes s' a (hlen ▸ h)]
  rcases respondBody_cases s with ⟨hshort, hbody⟩ | ⟨h12, hopc, hbody⟩ | ⟨h12, hopc, qs, ans, hq, ha, hend⟩
  · exact .inl ⟨_, _, _, hbody, respondBody_short s' (hlen ▸ hshort)⟩
  · rw [hoctet 2 (by omega)] at hopc
    exact .inl ⟨_, _, _, hbody, respondBody_gate s' (hlen ▸ h12) hopc⟩
  · have hhead : replyHead s qs = replyHead s' qs := by
      simp only [replyHead, hoctet 0 (by omega), hoctet 1 (by omega), hoctet 4 (by omega), hoctet 5 (by omega)]
    rw [hoctet 2 (by omega)] at hopc
    rw [hoctet 4 (by omega), hoctet 5 (by omega), hhead, hrx, hlen, hcfg] at hend
    rw [hrx, hlen] at hq
    rw [hcfg] at ha
    rw [hlen] at h12
    rcases hend with ⟨hqd, hfit, hbody⟩ | ⟨hqd, hover, hbody⟩ | ⟨hqd, hbad, hbody⟩ | ⟨q, hqd, hqq, hbad, hbody⟩
    · exact .inr ⟨_, _, hbody, respondBody_answers h12 hopc hqd hq ha hfit⟩
    · exact .inl ⟨_, _, _, hbody, respondBody_overflows h12 hopc ha hqd hq hover⟩
    · exact .inl ⟨_, _, _, hbody, respondBody_badQuestion h12 hopc ha hqd hq hbad⟩
    · exact .inl ⟨_, _, _, hbody, respondBody_badName h12 hopc ha hqd hqq hbad⟩

/-- Settles O35: a fault leaves no octet of TX valid, and a stored reply reads back whatever TX held before. -/
theorem respondDependsOnlyOnTheDatagram : Obligations.RespondDependsOnlyOnTheDatagram := by
  intro s s' hcfg hrx
  rcases respondBody_same_datagram hcfg hrx with ⟨f, u, u', hbody, hbody'⟩ | ⟨qs, reply, hbody, hbody'⟩
  · refine ⟨_, _, exec_respond_of_error hbody, exec_respond_of_error hbody', rfl, ?_⟩
    obtain ⟨-, hlen, hvalid, -⟩ := exec_respond_drops hbody
    obtain ⟨-, hlen', hvalid', -⟩ := exec_respond_drops hbody'
    refine ⟨hlen.trans hlen'.symm, hvalid.trans hvalid'.symm, ?_, fun h0 => absurd h0 (code_ne_zero f)⟩
    rw [State.txBytes, State.txBytes, hlen, hlen']
    rfl
  · refine ⟨_, _, exec_respond_of_ok hbody, exec_respond_of_ok hbody', rfl, rfl, rfl, ?_, fun _ => ?_⟩
    · rw [replied_txBytes, replied_txBytes]
    · show (loopState (respondStart s) qs).src = s.src
      rw [loopState_src, respondStart_src]

/-- The octets after the header are those of the echo that a cursor after them would give (R142). -/
theorem slice_rxBytes_eq_map {s : State} {n : Nat} (h : 12 + n ≤ s.rxlen) :
    slice s.rxBytes 12 n = (List.range n).map fun i => s.rxOctet (12 + i) := by
  have hecho := questionEcho_eq (s.setCur (12 + n)) h
  rwa [State.questionEcho, State.setCur_cur, hdrLen, Nat.add_sub_cancel_left] at hecho

/-- The questions after the header stand in every datagram that holds the same octets there (R85). -/
theorem queriesAt_of_octets {s s' : State} {qs : List Query} (hq : queriesAt s.rxBytes 12 s.rxlen qs)
    (hfit : 12 + (queriesWire qs).length ≤ s'.rxlen)
    (hsame : ∀ a, 12 ≤ a → a < 12 + (queriesWire qs).length → s.rxOctet a = s'.rxOctet a) :
    queriesAt s'.rxBytes 12 s'.rxlen qs := by
  obtain ⟨hok, hle, hslice⟩ := hq
  refine ⟨hok, hfit, ?_⟩
  rw [slice_rxBytes_eq_map hle] at hslice
  rw [slice_rxBytes_eq_map hfit]
  refine (List.map_congr_left fun i hi => ?_).trans hslice
  have hlt := List.mem_range.mp hi
  exact (hsame (12 + i) (by omega) (by omega)).symm

/-- Settles O36: the other datagram holds the same questions, and the reply is made of them, of octets 0, 1, 4 and 5, and of the table. -/
theorem respondIgnoresWhatItDoesNotExamine : Obligations.RespondIgnoresWhatItDoesNotExamine := by
  intro s s' t hcfg ht h0 hcur hopc' hsame
  obtain ⟨qs, ans, h12, -, hqd, hq, ha, hfit, rfl⟩ := exec_respond_answered ht h0
  have hend : (loopState (respondStart s) qs).cur = 12 + (queriesWire qs).length := loopState_cur _ qs
  have hend' : (loopState (respondStart s') qs).cur = 12 + (queriesWire qs).length := loopState_cur _ qs
  replace hcur : 12 + (queriesWire qs).length ≤ s'.rxlen := hend ▸ hcur
  replace hsame (a : Nat) (hlt : a < 12 + (queriesWire qs).length)
      (ha : a = 0 ∨ a = 1 ∨ a = 4 ∨ a = 5 ∨ 12 ≤ a) : s.rxOctet a = s'.rxOctet a :=
    hsame a (hlt.trans_eq hend.symm) ha
  have hhead : replyHead s qs = replyHead s' qs := by
    simp only [replyHead, hsame 0 (by omega) (by omega), hsame 1 (by omega) (by omega),
      hsame 4 (by omega) (by omega), hsame 5 (by omega) (by omega)]
  rw [hsame 4 (by omega) (by omega), hsame 5 (by omega) (by omega)] at hqd
  have hq' := queriesAt_of_octets hq hcur fun a hge hlt => hsame a hlt (by omega)
  have hbody := respondBody_answers (by omega) hopc' hqd hq' (hcfg ▸ ha) (hcfg ▸ hfit)
  refine ⟨_, exec_respond_of_ok hbody, rfl, hend'.trans hend.symm, ?_⟩
  rw [replied_txBytes, replied_txBytes, hhead]

end Sys2Proof.Machine
end

section
/-! The leaf commands against RESPOND (R181): one triple per host action, put together along the list of actions. -/

namespace Sys2Proof.Machine

/-! ### Runs of host actions -/

/-- `s` with the inputs `is` still to come and nothing else changed. -/
def State.withInputs (s : State) (is : List Input) : State := { s with inputs := is }

theorem run_add_of_next {m : Nat} (k : Nat) {s t : State} (h : Host.Core.run Sys2Proof.core m s = .next t) :
    Host.Core.run Sys2Proof.core (m + k) s = Host.Core.run Sys2Proof.core k t := by
  induction m generalizing s with
  | zero => cases h; rw [Nat.zero_add]
  | succ m ih =>
    rw [Nat.add_right_comm]
    simp only [Host.Core.run] at h ⊢
    split at h
    · exact ih h
    · cases h
    · cases h

/-- From a state of which `P` holds, the inputs `acts` are taken one after another and lead to one of which `Q` holds, whatever comes after them. -/
def Plays (P : State → Prop) (acts : List Input) (Q : State → Prop) : Prop :=
  ∀ u rest, P u → ∃ v, Q v ∧
    Host.Core.run Sys2Proof.core acts.length (u.withInputs (acts ++ rest)) = .next (v.withInputs rest)

theorem Plays.nil (P : State → Prop) : Plays P [] P := fun u _ hP => ⟨u, hP, rfl⟩

theorem Plays.append {P Q R : State → Prop} {as bs : List Input} (ha : Plays P as Q) (hb : Plays Q bs R) :
    Plays P (as ++ bs) R := by
  intro u rest hP
  obtain ⟨v, hQ, hv⟩ := ha u (bs ++ rest) hP
  obtain ⟨w, hR, hw⟩ := hb v rest hQ
  refine ⟨w, hR, ?_⟩
  rw [List.length_append, List.append_assoc, run_add_of_next _ hv, hw]

theorem Plays.cons {P Q R : State → Prop} {a : Input} {as : List Input} (ha : Plays P [a] Q)
    (has : Plays Q as R) : Plays P (a :: as) R :=
  ha.append has

/-- One host action, whatever is in the queue behind it. -/
theorem Plays.of_action {P Q : State → Prop} {a : HostAction}
    (h : ∀ u is, P u → ∃ v, Q v ∧ hostStep a (u.withInputs is) = .next (v.withInputs is)) :
    Plays P [.host a] Q := by
  intro u rest hP
  obtain ⟨v, hQ, hv⟩ := h u rest hP
  have hstep : step (u.withInputs ([.host a] ++ rest)) = .next (v.withInputs rest) := (step_host rfl).trans hv
  exact ⟨v, hQ, by simp only [List.length_singleton, Host.Core.run, Sys2Proof.core, hstep]⟩

/-- One command issued by its word. -/
theorem Plays.of_command {P Q : State → Prop} {i : Instr}
    (h : ∀ u is, P u → ∃ v, Q v ∧ exec i (u.withInputs is) = .next (v.withInputs is)) :
    Plays P [.host (.issue (encode i))] Q := by
  refine Plays.of_action fun u is hP => ?_
  simpa only [hostStep, issue, decodeWord_encode] using h u is hP

/-! ### A reply in the making -/

/-- `b` is in TX, every octet of it known (R23). -/
def holdsTx (u : State) (b : Octets) : Prop :=
  u.txlen = b.length ∧ ∀ i, i < b.length → Memory.read? u.tx.cells i = b[i]?

theorem txBytes_of_holdsTx {u : State} {b : Octets} (h : holdsTx u b) : u.txBytes = b := by
  rw [State.txBytes, h.1, bytes_eq_of_read? h.2]

/-- An append puts its octets after those TX holds (R57). -/
theorem holdsTx_storeTx {u : State} {b c : Octets} (h : holdsTx u b) :
    holdsTx (u.storeTx u.txlen c) (b ++ c) := by
  obtain ⟨hlen, hknown⟩ := h
  refine ⟨by rw [State.storeTx_txlen, hlen, List.length_append], fun i hi => ?_⟩
  rw [List.length_append] at hi
  rw [State.storeTx_tx, store_cells, hlen]
  rcases Nat.lt_or_ge i b.length with hlt | hge
  · rw [read?_writeAll_outside _ _ _ _ (.inl hlt), hknown i hlt, List.getElem?_append_left hlt]
  · obtain ⟨j, rfl⟩ := Nat.exists_eq_add_of_le hge
    rw [read?_writeAll_inside _ _ _ _ (by omega), List.getElem?_append_right hge, Nat.add_sub_cancel_left]

/-- The state `u` while the host builds by leaf commands the reply to the datagram in `s`: the cursor is at `cur` and TX holds `b`; the header registers but AN, and the flag fields, are those of the datagram (R181). -/
structure Building (s : State) (cur : Nat) (b : Octets) (u : State) : Prop where
  cfg : u.cfg = s.cfg
  rx : u.rx = s.rx
  rxlen : u.rxlen = s.rxlen
  txvalid : u.txvalid = s.txvalid
  dst : u.dst = s.dst
  hdr : ∃ an, u.hdr = { (respondStart s).hdr with an := an }
  flags : u.flags = (respondStart s).flags
  status : u.status = 0
  cur : u.cur = cur
  tx : holdsTx u b

theorem Building.rxBytes {s u : State} {cur : Nat} {b : Octets} (h : Building s cur b u) :
    u.rxBytes = s.rxBytes := by
  rw [State.rxBytes, h.rx, h.rxlen, State.rxBytes]

/-- TXCLR, HDRUNPACK and FLAGSUNPACK: nothing of the reply yet, and the registers of the header. -/
theorem plays_header {s : State} (h12 : 12 ≤ s.rxlen) :
    Plays (· = s) [.host .txclr, .host (.issue (encode .hdrunpack)), .host (.issue (encode .flagsunpack))]
      (Building s 12 []) := by
  refine (Plays.of_action (Q := (· = s.clearTx)) ?_).cons <| (Plays.of_command
    (Q := (· = ((s.clearTx.setHdr (hdrUnpack s.rxHead)).setCur 12).setStatus 0)) ?_).cons <|
    Plays.of_command ?_
  · rintro _ is rfl
    exact ⟨_, rfl, rfl⟩
  · rintro _ is rfl
    exact ⟨_, rfl, exec_hdrunpack_of_le (s := s.clearTx.withInputs is) h12⟩
  · rintro _ is rfl
    refine ⟨_, ?_, exec_flagsunpack_eq _⟩
    exact ⟨rfl, rfl, rfl, rfl, rfl, ⟨_, rfl⟩, rfl, rfl, rfl, rfl, fun _ hi => absurd hi (Nat.not_lt_zero _)⟩

/-- QUNPACK on a question that stands at the cursor. -/
theorem Building.exec_qunpack {s u : State} {cur : Nat} {b : Octets} {q : Query} (is : List Input)
    (h : Building s cur b u) (hok : labelsOk q.labels) (hfit : cur + (queryWire q).length ≤ s.rxlen)
    (hslice : slice s.rxBytes cur (queryWire q).length = queryWire q) :
    ∃ v, (Building s (cur + (queryWire q).length) b v ∧ v.nameBytes = joinDots q.labels) ∧
      exec .qunpack (u.withInputs is) = .next (v.withInputs is) := by
  have hq : qUnpack u.rxBytes u.cur u.rxlen = .ok (unpacked q cur) := by
    rw [h.rxBytes, h.cur, h.rxlen]
    exact qUnpack_of_wire hok hfit hslice
  refine ⟨(u.setQuestion (unpacked q cur)).setStatus 0, ⟨?_, setQuestion_nameBytes u _⟩,
    exec_qunpack_of_ok (s := u.withInputs is) hq⟩
  exact { h with status := rfl, cur := rfl }

/-- The first pass over the questions, which brings the cursor to their end. -/
theorem plays_questions {s : State} {b : Octets} (qs : List Query) {cur : Nat}
    (hq : queriesAt s.rxBytes cur s.rxlen qs) :
    Plays (Building s cur b) (List.replicate qs.length (.host (.issue (encode .qunpack))))
      (Building s (cur + (queriesWire qs).length) b) := by
  induction qs generalizing cur with
  | nil => exact Plays.nil _
  | cons q qs ih =>
    obtain ⟨⟨hok, hfit, hslice⟩, hqs⟩ := (queriesAt_cons _ _ _ _ _).mp hq
    rw [queriesWire_cons, List.length_append, ← Nat.add_assoc]
    refine (Plays.of_command fun u is h => ?_).cons (ih hqs)
    obtain ⟨v, ⟨hv, -⟩, hexec⟩ := h.exec_qunpack is hok hfit hslice
    exact ⟨v, hv, hexec⟩

/-! ### The header of the reply -/

/-- A HOSTWR that the spec allows writes its register (R42). -/
theorem hostStep_hostwr_of_fits {r : Reg} {v : RegValue} (u : State) (hw : hostMayWrite r = true)
    (hf : valueFits u.cfg r v = true) : hostStep (.hostwr r v) u = .next (writeReg r v u) := by
  simp [hostStep, hostWrite, hw, hf]

/-- A command that appends `c`, when it fits. -/
theorem Building.append {s u : State} {cur : Nat} {b c : Octets} (h : Building s cur b u) (is : List Input)
    (hfit : b.length + c.length ≤ s.cfg.maxLen) :
    ∃ v, Building s cur (b ++ c) v ∧
      endLeaf (u.withInputs is) ((u.withInputs is).append c) = .next (v.withInputs is) := by
  have hroom : u.txlen + c.length ≤ u.cfg.maxLen := by rwa [h.tx.1, h.cfg]
  refine ⟨(u.storeTx u.txlen c).setStatus 0, ?_, ?_⟩
  · exact { h with status := rfl, tx := holdsTx_storeTx h.tx }
  · rw [append_fits (s := u.withInputs is) hroom]
    rfl

/-- HDRPACK with AN written appends what RESPOND's reply begins with (R86, R142). -/
theorem Building.replyPrefix_eq {s u : State} {qs : List Query} {b : Octets}
    (h : Building s (12 + (queriesWire qs).length) b u) (han : u.hdr.an = (respondStart s).hdr.qd)
    (h12 : 12 ≤ s.rxlen) (hopc : (s.rxOctet 2).toNat / 2 % 16 = 0)
    (hq : queriesAt s.rxBytes 12 s.rxlen qs) : replyPrefix u = replyHead s qs := by
  have hecho : u.questionEcho = queriesWire qs := by
    rw [State.questionEcho, h.rxBytes, h.cur, hdrLen, Nat.add_sub_cancel_left]
    exact hq.2.2
  obtain ⟨an, hhdr⟩ := h.hdr
  have hreply := hdrPack_loopState s qs h12 hopc hq
  rw [questionEcho_loopState s qs hq, loopState_hdr, loopState_flags] at hreply
  rw [replyPrefix, hecho, han, h.flags, hhdr, hreply]

/-- AN is written with the question count, the header and the echo are appended, and the cursor goes back to the first question. -/
theorem plays_replyHead {s : State} {qs : List Query} (h12 : 12 ≤ s.rxlen)
    (hopc : (s.rxOctet 2).toNat / 2 % 16 = 0) (hq : queriesAt s.rxBytes 12 s.rxlen qs)
    (hfit : 12 + (queriesWire qs).length ≤ s.cfg.maxLen) :
    Plays (Building s (12 + (queriesWire qs).length) [])
      [.host (.hostwr .an (.word (respondStart s).hdr.qd.toNat)), .host (.issue (encode .hdrpack)),
        .host (.hostwr .cur (.word 12))]
      (Building s 12 (replyHead s qs)) := by
  refine (Plays.of_action (Q := fun u => Building s (12 + (queriesWire qs).length) [] u ∧
    u.hdr.an = (respondStart s).hdr.qd) ?_).cons <| (Plays.of_command
    (Q := Building s (12 + (queriesWire qs).length) (replyHead s qs)) ?_).cons <| Plays.of_action ?_
  · intro u is h
    obtain ⟨an, hhdr⟩ := h.hdr
    have hexec := hostStep_hostwr_of_fits (r := .an) (v := .word (respondStart s).hdr.qd.toNat)
      (u.withInputs is) rfl (decide_eq_true (respondStart s).hdr.qd.isLt)
    refine ⟨writeReg .an (.word (respondStart s).hdr.qd.toNat) u, ⟨?_, ?_⟩, hexec⟩
    · exact { h with hdr := ⟨_, by rw [writeReg, State.setHdr_hdr, hhdr]⟩ }
    · exact (BitVec.ofNat_toNat ..).trans (BitVec.setWidth_eq _)
  · rintro u is ⟨h, han⟩
    have hstart : 12 ≤ u.cur := (Nat.le_add_right ..).trans_eq h.cur.symm
    have hend : u.cur ≤ u.rxlen := h.cur.trans_le (hq.2.1.trans_eq h.rxlen.symm)
    have hprefix : replyPrefix (u.withInputs is) = replyHead s qs := h.replyPrefix_eq han h12 hopc hq
    rw [exec_hdrpack_of_cur (s := u.withInputs is) hstart hend, hprefix]
    exact h.append (c := replyHead s qs) is (by rwa [List.length_nil, Nat.zero_add, replyHead_length])
  · intro u is h
    have hwidth : 12 < 2 ^ u.cfg.lenw := lt_two_pow_lenw (h.cfg ▸ (Nat.le_add_right ..).trans hfit)
    have hexec := hostStep_hostwr_of_fits (r := .cur) (v := .word 12) (u.withInputs is) rfl
      (decide_eq_true hwidth)
    exact ⟨u.setCur 12, { h with cur := rfl }, hexec⟩

/-! ### The answers -/

theorem answersTo_cons_eq_some {c : Config} {q : Query} {qs : List Query} {ans : Octets}
    (h : answersTo c (q :: qs) = some ans) :
    ∃ record rest, ansBuild (joinDots q.labels) (lookupAddr c (joinDots q.labels)) = .ok record ∧
      answersTo c qs = some rest ∧ ans = record ++ rest := by
  simp only [answersTo] at h
  split at h
  · rename_i p rest hp hrest
    exact ⟨_, rest, ansBuild_ok _ hp, hrest, (Option.some.inj h).symm⟩
  · cases h

/-- QUNPACK, LOOKUP and ANSBUILD on an answerable question that stands at the cursor. -/
theorem plays_answer {s : State} {cur : Nat} {b record : Octets} {q : Query} (hok : labelsOk q.labels)
    (hfit : cur + (queryWire q).length ≤ s.rxlen)
    (hslice : slice s.rxBytes cur (queryWire q).length = queryWire q)
    (hrecord : ansBuild (joinDots q.labels) (lookupAddr s.cfg (joinDots q.labels)) = .ok record)
    (hroom : b.length + record.length ≤ s.cfg.maxLen) :
    Plays (Building s cur b) [.host (.issue (encode .qunpack)), .host (.issue (encode .lookup)),
        .host (.issue (encode .ansbuild))]
      (Building s (cur + (queryWire q).length) (b ++ record)) := by
  refine (Plays.of_command fun u is h => h.exec_qunpack is hok hfit hslice).cons <| (Plays.of_command
    (Q := fun u => Building s (cur + (queryWire q).length) b u ∧ ansBuild u.nameBytes u.addr = .ok record)
    ?_).cons <| Plays.of_command ?_
  · rintro u is ⟨h, hname⟩
    refine ⟨(u.setAddr (lookupAddr u.cfg u.nameBytes)).setStatus 0, ⟨{ h with status := rfl }, ?_⟩,
      exec_lookup_eq (u.withInputs is)⟩
    show ansBuild u.nameBytes (lookupAddr u.cfg u.nameBytes) = .ok record
    rw [hname, h.cfg, hrecord]
  · rintro u is ⟨h, hbuild⟩
    rw [exec_ansbuild_of_ok (s := u.withInputs is) hbuild]
    exact h.append is hroom

/-- The second pass over the questions, which appends their answers one by one. -/
theorem plays_answers {s : State} (qs : List Query) {cur : Nat} {b ans : Octets}
    (hq : queriesAt s.rxBytes cur s.rxlen qs) (ha : answersTo s.cfg qs = some ans)
    (hroom : b.length + ans.length ≤ s.cfg.maxLen) :
    Plays (Building s cur b)
      (List.replicate qs.length [Input.host (.issue (encode .qunpack)), .host (.issue (encode .lookup)),
        .host (.issue (encode .ansbuild))]).flatten
      (Building s (cur + (queriesWire qs).length) (b ++ ans)) := by
  induction qs generalizing cur b ans with
  | nil =>
    obtain rfl : [] = ans := Option.some.inj ha
    rw [List.append_nil]
    exact Plays.nil _
  | cons q qs ih =>
    obtain ⟨⟨hok, hfit, hslice⟩, hqs⟩ := (queriesAt_cons _ _ _ _ _).mp hq
    obtain ⟨record, rest, hrecord, hrest, rfl⟩ := answersTo_cons_eq_some ha
    rw [List.length_append, ← Nat.add_assoc] at hroom
    rw [queriesWire_cons, List.length_append, ← Nat.add_assoc, ← List.append_assoc]
    exact (plays_answer hok hfit hslice hrecord (by omega)).append
      (ih hqs hrest (by rwa [List.length_append]))

/-! ### The whole reply -/

/-- The leaf commands of R181 build the reply to an answerable datagram. -/
theorem plays_leafActions {s : State} {qs : List Query} {ans : Octets} (h12 : 12 ≤ s.rxlen)
    (hopc : (s.rxOctet 2).toNat / 2 % 16 = 0)
    (hqd : (respondStart s).hdr.qd.toNat = qs.length) (hq : queriesAt s.rxBytes 12 s.rxlen qs)
    (ha : answersTo s.cfg qs = some ans) (hfit : 12 + (queriesWire qs).length + ans.length ≤ s.cfg.maxLen) :
    Plays (· = s) (leafActions qs.length) (Building s (12 + (queriesWire qs).length) (replyHead s qs ++ ans)) := by
  have hhead := plays_replyHead h12 hopc hq (by omega)
  rw [hqd] at hhead
  have hanswers := plays_answers qs (b := replyHead s qs) hq ha (by rwa [replyHead_length])
  exact (((plays_header h12).append (plays_questions qs hq)).append hhead).append hanswers

/-- Settles O37: the actions lead to a state that holds the octets RESPOND stores, and the rest of the queue is still to come. -/
theorem leafCommandsBuildTheSameReply : Obligations.LeafCommandsBuildTheSameReply := by
  intro s t rest _ ht h0 hin
  obtain ⟨qs, ans, h12, hopc, hqd, hq, ha, hfit, rfl⟩ := exec_respond_answered ht h0
  have hcount : (respondStart s).hdr.qd.toNat = qs.length := (respondStart_qd s h12).trans hqd
  have hn : ((replied (loopState (respondStart s) qs) (replyHead s qs ++ ans)).setStatus 0).hdr.qd.toNat =
      qs.length := (congrArg (·.qd.toNat) (loopState_hdr _ qs)).trans hcount
  rw [hn] at hin ⊢
  obtain ⟨u, hu, hrun⟩ := plays_leafActions h12 hopc hcount hq ha hfit s rest rfl
  have hqueue : s.withInputs (leafActions qs.length ++ rest) = s := by rw [← hin]; rfl
  rw [hqueue] at hrun
  refine ⟨u.withInputs rest, hrun, ?_, ?_, hu.status, hu.txvalid, hu.dst, rfl⟩
  · exact (txBytes_of_holdsTx hu.tx).trans (replied_txBytes _ _).symm
  · exact hu.tx.1.trans (Nat.zero_add _).symm

end Sys2Proof.Machine
end

section
/-! Faults (60_exceptions.md): the malformed name at the cursor (R201), the remaining drops of RESPOND and its two ends (R203, R204, R207), and what the fault of a command leaves (R200, R206). -/

namespace Sys2Proof.Machine

/-! ### The malformed name at the cursor -/

/-- The first turn of the decoder's loop refuses an offset at or beyond the end, a length octet above 63, and a label that would extend beyond the end (R113, R201). -/
theorem parseName_malformed {s : Octets} {off stop : Nat}
    (h : stop ≤ off ∨ (off < stop ∧ 64 ≤ (octetAt s off).toNat) ∨
      (off < stop ∧ 1 ≤ (octetAt s off).toNat ∧ stop < off + 1 + (octetAt s off).toNat)) :
    parseName s off stop = .error .malformedMessage := by
  rw [parseName, parseLoop]
  rcases h with hbeyond | ⟨hin, hlong⟩ | ⟨hin, hpos, hpast⟩
  · rw [if_pos hbeyond]
  · rw [if_neg (Nat.not_le.mpr hin), if_neg (by omega), if_pos (show maxLabel < _ from hlong)]
  · rw [if_neg (Nat.not_le.mpr hin), if_neg (by omega), if_pos hpast, ite_self]

theorem qUnpack_of_parseName_error {s : Octets} {off stop : Nat} {f : CommandFault}
    (h : parseName s off stop = .error f) : qUnpack s off stop = .error f := by
  simp only [qUnpack, h]

/-- Settles O16: both commands decode the name at the cursor first. -/
theorem malformedNameAtTheCursorFaults : Obligations.MalformedNameAtTheCursorFaults := by
  intro s h
  have hparse : parseName s.rxBytes s.cur s.rxlen = .error .malformedMessage := by
    apply parseName_malformed
    rcases h with hbeyond | ⟨hin, hrest⟩ | ⟨hin, hrest⟩
    · exact .inl hbeyond
    · exact .inr (.inl ⟨hin, by rwa [octetAt_rxBytes s s.cur hin]⟩)
    · exact .inr (.inr ⟨hin, by rwa [octetAt_rxBytes s s.cur hin]⟩)
  exact ⟨exec_parsename_of_error hparse, exec_qunpack_of_error (qUnpack_of_parseName_error hparse)⟩

/-! ### RESPOND -/

/-- A fault after the questions `qs` were decoded drops the datagram with its code and leaves the registers of the last of them (R207). -/
theorem exec_respond_drops_after {s : State} {qs : List Query} {f : CommandFault} (h12 : 12 ≤ s.rxlen)
    (hbody : respondBody s = .error (f, loopState (respondStart s) qs)) :
    ∃ t, exec .respond s = .next t ∧ dropped s t f.code ∧ afterQueries s t qs :=
  ⟨_, exec_respond_of_error hbody, exec_respond_drops hbody, afterQueries_loopState s h12 qs _ rfl⟩

/-- Settles O31: the registers of the question are written before its name is encoded. -/
theorem respondDropsUnencodableNames : Obligations.RespondDropsUnencodableNames :=
  fun _ _ _ _ h12 hopc hqd hq ha hbad =>
    exec_respond_drops_after h12 (respondBody_badName h12 hopc ha hqd hq hbad)

/-- Settles O32: the length is tested on the assembled reply, after the question loop. -/
theorem respondDropsOversizeReplies : Obligations.RespondDropsOversizeReplies :=
  fun _ _ _ h12 hopc hqd hq ha hover =>
    exec_respond_drops_after h12 (respondBody_overflows h12 hopc ha hqd hq hover)

theorem replied_txlen (s : State) (reply : Octets) : (replied s reply).txlen = reply.length :=
  Nat.zero_add _

/-- Settles O33: the body ends in a stored reply or in one of its faults. -/
theorem respondAnswersOrDrops : Obligations.RespondAnswersOrDrops := by
  intro s
  obtain ⟨t, ht⟩ := exec_next .respond s
  refine ⟨t, ht, ?_⟩
  rcases exec_respond_cases ht with ⟨f, u, hbody, rfl, hu⟩ | ⟨qs, ans, -, -, -, -, -, hfit, rfl⟩
  · have hdrop := exec_respond_drops hbody
    have hfault : f = .malformedMessage ∨ f = .unsupportedOpcode ∨ f = .nameEncode ∨ f = .txOverflow := by
      rcases hu with ⟨-, rfl⟩ | ⟨-, _, -, -, hf⟩
      · exact .inl rfl
      · exact hf
    right
    rcases hfault with rfl | rfl | rfl | rfl
    · exact .inl hdrop
    · exact .inr (.inl hdrop)
    · exact .inr (.inr (.inl hdrop))
    · exact .inr (.inr (.inr hdrop))
  · have hdst : (loopState (respondStart s) qs).src = s.src := by rw [loopState_src, respondStart_src]
    refine .inl ⟨rfl, rfl, hdst, ?_⟩
    rw [State.setStatus_txlen, replied_txlen, List.length_append, replyHead_length]
    omega

/-! ### The other commands -/

/-- Every command but RESPOND ends as a leaf command does: its writes whole, or a fault that discards them (R206). -/
theorem exec_eq_endLeaf {i : Instr} (s : State) (hi : i ≠ .respond) : ∃ r, exec i s = endLeaf s r := by
  cases i with
  | respond => exact absurd rfl hi
  | flagsunpack => exact ⟨.ok (s.setFlags (flagsUnpack s.hdr.fw)), rfl⟩
  | lookup => exact ⟨.ok (s.setAddr (lookupAddr s.cfg s.nameBytes)), rfl⟩
  | _ => exact ⟨_, rfl⟩

/-- Settles O38: a leaf command that ends with a fault discards its writes. -/
theorem faultingLeafChangesOnlyStatus : Obligations.FaultingLeafChangesOnlyStatus := by
  intro i s t hi ht hne
  obtain ⟨r, hr⟩ := exec_eq_endLeaf s hi
  rcases endLeaf_cases (hr ▸ ht) with ⟨u, -, rfl⟩ | ⟨f, -, rfl⟩
  · exact absurd rfl hne
  · rfl

section
variable {s t : State}

theorem endLeaf_append_status {b : Octets} (ht : endLeaf s (s.append b) = .next t) :
    t.status = 0 ∨ t.status = 4 := by
  rcases endLeaf_append_cases ht with rfl | ⟨-, rfl⟩
  · exact .inr rfl
  · exact .inl rfl

theorem exec_packname_status (ht : exec .packname s = .next t) :
    t.status = 0 ∨ t.status = 3 ∨ t.status = 4 := by
  cases hp : packName s.nameBytes with
  | ok b =>
    rw [exec_packname_of_ok hp] at ht
    exact (endLeaf_append_status ht).imp_right .inr
  | error f =>
    obtain ⟨rfl, -⟩ := packName_error hp
    cases (exec_packname_of_error hp).symm.trans ht
    exact .inr (.inl rfl)

theorem exec_ansbuild_status (ht : exec .ansbuild s = .next t) :
    t.status = 0 ∨ t.status = 3 ∨ t.status = 4 := by
  rcases ansBuild_cases s.nameBytes s.addr with ⟨p, -, hbuild⟩ | ⟨-, hbuild⟩
  · rw [exec_ansbuild_of_ok hbuild] at ht
    exact (endLeaf_append_status ht).imp_right .inr
  · cases (exec_ansbuild_of_error hbuild).symm.trans ht
    exact .inr (.inl rfl)

theorem exec_hdrpack_status (ht : exec .hdrpack s = .next t) :
    t.status = 0 ∨ t.status = 4 ∨ t.status = 6 := by
  by_cases houtside : s.cur < 12 ∨ s.rxlen < s.cur
  · cases (exec_hdrpack_of_cur_outside houtside).symm.trans ht
    exact .inr (.inr rfl)
  · rw [exec_hdrpack_of_cur (by omega) (by omega)] at ht
    exact (endLeaf_append_status ht).imp_right .inl

theorem exec_parsename_status (ht : exec .parsename s = .next t) : t.status = 0 ∨ t.status = 1 := by
  rcases exec_parsename_cases ht with rfl | ⟨-, -, -, rfl⟩
  · exact .inr rfl
  · exact .inl rfl

theorem exec_qunpack_status (ht : exec .qunpack s = .next t) : t.status = 0 ∨ t.status = 1 := by
  rcases exec_qunpack_cases ht with rfl | ⟨-, -, rfl⟩
  · exact .inr rfl
  · exact .inl rfl

theorem exec_hdrunpack_status (ht : exec .hdrunpack s = .next t) : t.status = 0 ∨ t.status = 1 := by
  rcases exec_hdrunpack_cases ht with ⟨-, rfl⟩ | ⟨-, rfl⟩
  · exact .inr rfl
  · exact .inl rfl

/-- The codes of RESPOND are those of its two ends. -/
theorem exec_respond_status (ht : exec .respond s = .next t) :
    t.status = 0 ∨ t.status = 1 ∨ t.status = 2 ∨ t.status = 3 ∨ t.status = 4 := by
  obtain ⟨u, hu, hend⟩ := respondAnswersOrDrops s
  cases hu.symm.trans ht
  exact hend.imp And.left (.imp And.left (.imp And.left (.imp And.left And.left)))

end

/-- Settles O39: no command stops the machine (`exec_next`), and each raises only the faults of its own steps. -/
theorem everyCommandEndsWithItsOwnStatus : Obligations.EveryCommandEndsWithItsOwnStatus := by
  intro i s
  obtain ⟨t, ht⟩ := exec_next i s
  refine ⟨t, ht, ?_⟩
  cases i with
  | pack16 | pack32 | flagspack => exact endLeaf_append_status ht
  | packname => exact exec_packname_status ht
  | ansbuild => exact exec_ansbuild_status ht
  | parsename => exact exec_parsename_status ht
  | hdrunpack => exact exec_hdrunpack_status ht
  | qunpack => exact exec_qunpack_status ht
  | hdrpack => exact exec_hdrpack_status ht
  | flagsunpack => cases ht; rfl
  | lookup => cases ht; rfl
  | respond => exact exec_respond_status ht

end Sys2Proof.Machine
end

section
/-! The host's duties (R240-R242): what an action leaves of the reply in TX, that a dutiful host does not touch an owed one, and that none of its actions stops the machine. -/

namespace Sys2Proof.Machine

/-! ### Waiting -/

/-- Settles O6, by the empty queue's branch of the step. -/
theorem blockWaitsWithoutInput : Obligations.BlockWaitsWithoutInput := by
  intro s hin
  simp only [step, hin]

/-! ### What an action leaves of the reply -/

/-- The frame of HOSTWR (R42): no register of it is TX, TXLEN, TXVALID or DST. -/
theorem writeReg_frame (r : Reg) (v : RegValue) (s : State) :
    writeReg r v s = { s with
        cur := (writeReg r v s).cur, name := (writeReg r v s).name,
        namelen := (writeReg r v s).namelen, val := (writeReg r v s).val,
        hdr := (writeReg r v s).hdr, flags := (writeReg r v s).flags,
        qtype := (writeReg r v s).qtype, qclass := (writeReg r v s).qclass,
        addr := (writeReg r v s).addr } := by
  cases r <;> rfl

theorem exec_tx_of_not_writesTx {i : Instr} {s t : State} (hi : writesTx i = false)
    (ht : exec i s = .next t) : t.txlen = s.txlen ∧ t.tx = s.tx := by
  obtain ⟨-, htx, -⟩ := onlyListedCommandsWriteARegister i s t ht
  by_contra hne
  exact absurd (htx (not_and_or.mp hne)) (Bool.eq_false_iff.mp hi)

theorem exec_txvalid_dst_of_ne_respond {i : Instr} {s t : State} (hi : i ≠ .respond)
    (ht : exec i s = .next t) : t.txvalid = s.txvalid ∧ t.dst = s.dst := by
  obtain ⟨-, -, hreply, -⟩ := onlyListedCommandsWriteARegister i s t ht
  by_contra hne
  exact hi (hreply (not_and_or.mp hne))

section
variable {a : HostAction} {s t : State} (ht : hostStep a s = .next t)
include ht

/-- Only TXCLR and the commands that write TX change TX or TXLEN (R31, R43). -/
theorem hostStep_tx (hclr : a ≠ .txclr)
    (hcmd : ∀ c i, a = .issue c → decodeWord c = .ok i → writesTx i = false) :
    t.txlen = s.txlen ∧ t.tx = s.tx := by
  rcases hostStep_next_cases ht with ⟨p, q, -, -, rfl⟩ | ⟨r, v, -, -, -, rfl⟩ | ⟨r, -, rfl⟩ |
    ⟨ha, -⟩ | ⟨c, i, ha, hc, hi⟩ | ⟨c, e, -, -, rfl⟩ | ⟨-, -, rfl⟩
  case inr.inl => rw [writeReg_frame]; exact ⟨rfl, rfl⟩
  case inr.inr.inr.inl => exact absurd ha hclr
  case inr.inr.inr.inr.inl => exact exec_tx_of_not_writesTx (hcmd c i ha hc) hi
  all_goals exact ⟨rfl, rfl⟩

/-- Only ISSUE of RESPOND changes TXVALID or DST (R195). -/
theorem hostStep_txvalid_dst (hcmd : ∀ c, a = .issue c → decodeWord c ≠ .ok .respond) :
    t.txvalid = s.txvalid ∧ t.dst = s.dst := by
  rcases hostStep_next_cases ht with ⟨p, q, -, -, rfl⟩ | ⟨r, v, -, -, -, rfl⟩ | ⟨r, -, rfl⟩ |
    ⟨-, rfl⟩ | ⟨c, i, ha, hc, hi⟩ | ⟨c, e, -, -, rfl⟩ | ⟨-, -, rfl⟩
  case inr.inl => rw [writeReg_frame]; exact ⟨rfl, rfl⟩
  case inr.inr.inr.inr.inl =>
    have hne : i ≠ .respond := fun h => hcmd c ha (h ▸ hc)
    exact exec_txvalid_dst_of_ne_respond hne hi
  all_goals exact ⟨rfl, rfl⟩

end

/-- A SEND that is taken gives the outside TX[0 ..< TXLEN] for DST (R46). -/
theorem outputs_of_hostStep_send {s t : State} (ht : hostStep .send s = .next t) :
    t.outputs = s.outputs ++ [.datagram s.txBytes s.dst] := by
  obtain ⟨hsent, hstuck⟩ := sendTransmitsTheReply s
  cases hvalid : s.txvalid with
  | true => cases (hsent hvalid).symm.trans ht; rfl
  | false => cases (hstuck hvalid).symm.trans ht

/-! ### What the duties allow -/

theorem ne_txclr_of_dutyAllows {d : Duty} {s : State} {a : HostAction} (howed : d.replyOwed = true)
    (hd : dutyAllows d s (.host a) = true) : a ≠ .txclr := by
  rintro rfl
  simp [dutyAllows, howed] at hd

/-- While a reply is owed a SEND the host issues no command that writes TX (R242). -/
theorem not_writesTx_of_dutyAllows {d : Duty} {s : State} {c : BitVec 4} {i : Instr}
    (howed : d.replyOwed = true) (hd : dutyAllows d s (.host (.issue c)) = true)
    (hc : decodeWord c = .ok i) : writesTx i = false := by
  simp only [dutyAllows, hc, howed, Bool.true_and, Bool.and_eq_true, Bool.not_eq_true'] at hd
  exact hd.1

/-- A dutiful host sends only a reply it owes (R242). -/
theorem replyOwed_of_dutyAllows_send {d : Duty} {s : State}
    (hd : dutyAllows d s (.host .send) = true) : d.replyOwed = true := hd

theorem wellFormed_of_dutyAllows {d : Duty} {s : State} {a : HostAction}
    (hd : dutyAllows d s (.host a) = true) : a.wellFormed s.cfg = true := by
  cases a with
  | deliver p q => exact hd
  | hostwr r v => exact hd
  | hostrd r | txclr | issue c | send => rfl

/-- Settles O56: what writes TX, TXLEN, TXVALID or DST is TXCLR or a command that writes TX, and neither is allowed. -/
theorem owedReplyIsSentUnchanged : Obligations.OwedReplyIsSentUnchanged := by
  intro d s t i rest hin howed hd ht hreset
  cases i with
  | reset => exact absurd rfl hreset
  | host a =>
    rw [step_host hin] at ht
    have hcmd : ∀ c i, a = .issue c → decodeWord c = .ok i → writesTx i = false := by
      rintro c i rfl hc
      exact not_writesTx_of_dutyAllows howed hd hc
    obtain ⟨hlen, htx⟩ := hostStep_tx ht (ne_txclr_of_dutyAllows howed hd) hcmd
    obtain ⟨hvalid, hdst⟩ := hostStep_txvalid_dst ht fun c ha hc => by cases hcmd c _ ha hc
    refine ⟨by rw [State.txBytes, htx, hlen]; rfl, hdst, hvalid, fun hsend => ?_⟩
    cases hsend
    exact outputs_of_hostStep_send (s := { s with inputs := rest }) ht

/-! ### A dutiful host goes on -/

/-- A well-formed action is taken, SEND only with a reply to send (R41, R42, R46). -/
theorem hostStep_next_of_wellFormed {a : HostAction} {s : State} (hwf : a.wellFormed s.cfg = true)
    (hsend : a = .send → s.txvalid = true) : ∃ t, hostStep a s = .next t := by
  cases a with
  | deliver p q => exact (deliverLoadsTheDatagram s p q (of_decide_eq_true hwf)).imp fun _ => And.left
  | hostwr r v =>
    obtain ⟨hw, hf⟩ := (Bool.and_eq_true _ _).mp hwf
    exact ⟨_, hostStep_hostwr_of_fits s hw hf⟩
  | hostrd r => exact ⟨_, (hostReadChangesNothing s r).1⟩
  | txclr => exact (txclrOnlyResetsTheLength s).imp fun _ => And.left
  | issue c => exact issue_next c s
  | send => exact ⟨_, (sendTransmitsTheReply s).1 (hsend rfl)⟩

/-- After an action a reply is owed because RESPOND has just made a valid one, or because it was owed before an action that is no RESPOND. -/
theorem replyOwed_of_dutyNext {d : Duty} {s t : State} {a : HostAction}
    (h : (dutyNext d s t (.host a)).replyOwed = true) :
    t.txvalid = true ∨
      (d.replyOwed = true ∧ ∀ c, a = .issue c → decodeWord c ≠ .ok .respond) := by
  cases a with
  | issue c =>
    by_cases hc : decodeWord c = .ok .respond
    · left
      simpa [dutyNext, hc] using h
    · right
      refine ⟨?_, by rintro _ ⟨⟩; exact hc⟩
      simp only [dutyNext] at h
      split at h
      · contradiction
      · exact h
      · exact h
  | hostwr r v => exact .inr ⟨by cases r <;> exact h, nofun⟩
  | deliver p q => exact .inr ⟨h, nofun⟩
  | hostrd r | txclr => exact .inr ⟨h, nofun⟩
  | send => cases h

/-- Settles O57: a reset is always taken, and an allowed action is well formed; the invariant is kept by every step, and TXVALID by every action but RESPOND, which starts the debt anew. -/
theorem dutifulHostIsNeverStopped : Obligations.DutifulHostIsNeverStopped := by
  intro d s i rest hinv howed hin hd
  cases i with
  | reset =>
    have ht := step_reset hin
    exact ⟨_, ht, stepKeepsTheInvariant _ _ hinv ht, nofun⟩
  | host a =>
    obtain ⟨t, ht⟩ : ∃ t, hostStep a { s with inputs := rest } = .next t := by
      refine hostStep_next_of_wellFormed (wellFormed_of_dutyAllows hd) ?_
      rintro rfl
      exact howed (replyOwed_of_dutyAllows_send hd)
    have hstep : step s = .next t := (step_host hin).trans ht
    refine ⟨t, hstep, stepKeepsTheInvariant _ _ hinv hstep, fun hnext => ?_⟩
    rcases replyOwed_of_dutyNext hnext with hvalid | ⟨hbefore, hcmd⟩
    · exact hvalid
    · exact (hostStep_txvalid_dst ht hcmd).1.trans (howed hbefore)

end Sys2Proof.Machine
end
